-- ==== Sys2Proof/Word.lean ====
section
/-! DEFINITION. The words of the RUM core: 32-bit Words, bytes of the guest channels, 3-bit register
indices and the 25-bit immediate (00_scope R4, R6; 10_state R24, R26). -/

namespace Sys2Proof

/-- R4, R6: a Word, an unsigned 32-bit integer, the machine's only scalar. -/
abbrev Word := BitVec 32

/-- R4: the unit of guest input and output. -/
abbrev Byte := BitVec 8

/-- R26: a register index, a 3-bit field of an instruction word, so always 0 to 7. -/
abbrev RegIx := BitVec 3

/-- R104, R107: the immediate of opcode 13. -/
abbrev Imm := BitVec 25

end Sys2Proof
end

