-- ==== Sys2Proof/Config.lean ====
section
/-! DEFINITION. What is fixed for one machine: the bounds of 00_scope R5 and the two free values, the
parameters the spec leaves OPEN (92_eei_decisions D13 and D15). -/

namespace Sys2Proof

/-- R5, R61, D14: the largest number of Words in one segment, the boot image included. -/
def Config.maxSegLen : Nat := 2 ^ 32 - 1

/-- R5, R61, D13: the largest number of handle slots. -/
def Config.maxHandles : Nat := 2 ^ 32

/-- R72, D13 (OPEN): the predicate `alloc_ok(size)`, "which may depend on the whole current state".
No body: nothing can be proved of its value, so what is proved of a machine that uses it holds for
every such predicate. `σ` is Machine.State, which is declared after this file. Log entry 8. -/
opaque Config.allocOk {σ : Type} : σ → Word → Bool

/-- R5, R183, D15 (OPEN): byte `i` of an infinite input stream, beyond the bytes that the state lists.
No body: nothing can be proved of its value. Log entry 7. -/
opaque Config.inputByte : Nat → Byte

end Sys2Proof
end

