-- ==== Sys2Proof/Syntax.lean ====
section
/-! DEFINITION. The decoded Instruction (30_encoding R113): one constructor per row of
spec/opcode_table.json, in the order of the opcodes (R109). -/

namespace Sys2Proof

/-- R113: an opcode with the three 3-bit fields `a b c` of the three-register format, or, for opcode 13,
the destination `l` and the 25-bit immediate. All three fields are kept for every opcode 0 to 12, whether
or not the operation uses them (R103, R105, conflict C10). The widths of the fields' types are the
widths of R103 and R104, so no value of this type is ill-formed (R111). -/
inductive Instr where
  /-- opcode 0, Conditional move (R150) -/
  | cmov (a b c : RegIx)
  /-- opcode 1, Segmented load (R151) -/
  | sload (a b c : RegIx)
  /-- opcode 2, Segmented store (R152) -/
  | sstore (a b c : RegIx)
  /-- opcode 3, Add (R160) -/
  | add (a b c : RegIx)
  /-- opcode 4, Multiply (R161) -/
  | mul (a b c : RegIx)
  /-- opcode 5, Divide (R162) -/
  | div (a b c : RegIx)
  /-- opcode 6, Bitwise NAND (R163) -/
  | nand (a b c : RegIx)
  /-- opcode 7, Halt (R170) -/
  | halt (a b c : RegIx)
  /-- opcode 8, Map segment (R171) -/
  | map (a b c : RegIx)
  /-- opcode 9, Unmap segment (R172) -/
  | unmap (a b c : RegIx)
  /-- opcode 10, Output (R180) -/
  | out (a b c : RegIx)
  /-- opcode 11, Input (R181), the table's `in` -/
  | inp (a b c : RegIx)
  /-- opcode 12, Load program (R190) -/
  | loadp (a b c : RegIx)
  /-- opcode 13, Load immediate (R195) -/
  | loadi (l : RegIx) (imm : Imm)
deriving DecidableEq, Repr

end Sys2Proof
end

