-- ==== Sys2Proof/WellFormed.lean ====
section
/-! DEFINITION. The checks on raw data that comes from outside the machine's types: an instruction word
(30_encoding R106, R110), a canonical word (R114, R115), the fields an operation leaves unused (R108,
R118) and a boot image (70_reset R235). An `Instr` itself needs no check: its field types have exactly
the widths of R103 and R104 and no value of a field is reserved (R111). Log entry 2. -/

namespace Sys2Proof

/-- R106: the decoder's output `valid`, `not (word[31] and word[30] and word[29])`. -/
def validWord (w : Word) : Bool := !(w.getLsbD 31 && w.getLsbD 30 && w.getLsbD 29)

/-- R106: the decoder's output `is_imm`. -/
def immediateWord (w : Word) : Bool := w.extractLsb' 28 4 == 13#4

/-- R114, R115: a canonical word: a valid word whose don't-care bits 27 to 9 are zero, where its format
has don't-care bits. -/
def canonicalWord (w : Word) : Bool :=
  validWord w && (immediateWord w || w.extractLsb' 9 19 == 0#19)

/-- R108, R118: the register fields the operation does not use are 0, as in every word the syntax of R119
assembles to. The machine does not ask for it (R105, R112). -/
def Instr.unusedFieldsZero : Instr → Bool
  | .halt a b c => a == 0 && b == 0 && c == 0
  | .map a _ _ => a == 0
  | .unmap a b _ => a == 0 && b == 0
  | .out a b _ => a == 0 && b == 0
  | .inp a b _ => a == 0 && b == 0
  | .loadp a _ _ => a == 0
  | .cmov _ _ _ => true
  | .sload _ _ _ => true
  | .sstore _ _ _ => true
  | .add _ _ _ => true
  | .mul _ _ _ => true
  | .div _ _ _ => true
  | .nand _ _ _ => true
  | .loadi _ _ => true

/-- R235, D14, D17: the length in bytes of a boot image: a multiple of 4, and at most `MAX_SEG_LEN`
Words. -/
def imageLengthOk (bytes : Nat) : Bool := decide (bytes % 4 = 0) && decide (bytes / 4 ≤ Config.maxSegLen)

end Sys2Proof
end

