-- ==== Sys2Proof/Decode.lean ====
section
/-! DEFINITION. The decoder and the encoder (30_encoding R101 to R115), and the host's entry
`decodeTableWord`. -/

namespace Sys2Proof

/-- R110: why a word does not decode; "this is the only decode failure mode". -/
inductive DecodeError where
  /-- opcode 14 or 15 (R110); safe: the step turns it into the fatal stop IllegalOpcode (R133) -/
  | illegalOpcode (opcode : BitVec 4)
deriving DecidableEq, Repr

/-- R102: bits 31 to 28. -/
def opcodeOf (w : Word) : BitVec 4 := w.extractLsb' 28 4
/-- R103: bits 8 to 6. -/
def fieldA (w : Word) : RegIx := w.extractLsb' 6 3
/-- R103: bits 5 to 3. -/
def fieldB (w : Word) : RegIx := w.extractLsb' 3 3
/-- R103: bits 2 to 0. -/
def fieldC (w : Word) : RegIx := w.extractLsb' 0 3
/-- R104: bits 27 to 25. -/
def fieldL (w : Word) : RegIx := w.extractLsb' 25 3
/-- R104: bits 24 to 0. -/
def fieldImm (w : Word) : Imm := w.extractLsb' 0 25

/-- R101, R109, R113: the decoder, a total function of one word. Bits 27 to 9 of the three-register format
are not looked at (R105). -/
def decode (w : Word) : Except DecodeError Instr :=
  match (opcodeOf w).toNat with
  | 0 => .ok (.cmov (fieldA w) (fieldB w) (fieldC w))
  | 1 => .ok (.sload (fieldA w) (fieldB w) (fieldC w))
  | 2 => .ok (.sstore (fieldA w) (fieldB w) (fieldC w))
  | 3 => .ok (.add (fieldA w) (fieldB w) (fieldC w))
  | 4 => .ok (.mul (fieldA w) (fieldB w) (fieldC w))
  | 5 => .ok (.div (fieldA w) (fieldB w) (fieldC w))
  | 6 => .ok (.nand (fieldA w) (fieldB w) (fieldC w))
  | 7 => .ok (.halt (fieldA w) (fieldB w) (fieldC w))
  | 8 => .ok (.map (fieldA w) (fieldB w) (fieldC w))
  | 9 => .ok (.unmap (fieldA w) (fieldB w) (fieldC w))
  | 10 => .ok (.out (fieldA w) (fieldB w) (fieldC w))
  | 11 => .ok (.inp (fieldA w) (fieldB w) (fieldC w))
  | 12 => .ok (.loadp (fieldA w) (fieldB w) (fieldC w))
  | 13 => .ok (.loadi (fieldL w) (fieldImm w))
  | _ => .error (.illegalOpcode (opcodeOf w))

/-- R109: the opcode number of an instruction: its row in the table, the first row being 0 (D1, log
entry 1). -/
def Instr.opcode : Instr → Nat
  | .cmov _ _ _ => 0
  | .sload _ _ _ => 1
  | .sstore _ _ _ => 2
  | .add _ _ _ => 3
  | .mul _ _ _ => 4
  | .div _ _ _ => 5
  | .nand _ _ _ => 6
  | .halt _ _ _ => 7
  | .map _ _ _ => 8
  | .unmap _ _ _ => 9
  | .out _ _ _ => 10
  | .inp _ _ _ => 11
  | .loadp _ _ _ => 12
  | .loadi _ _ => 13

/-- R114: `encode(Three(op, a, b, c)) = op * 2^28 + a * 2^6 + b * 2^3 + c`. -/
def threeWord (op : Nat) (a b c : RegIx) : Word :=
  BitVec.ofNat 32 (op * 2 ^ 28 + a.toNat * 2 ^ 6 + b.toNat * 2 ^ 3 + c.toNat)

/-- R114: `encode(LoadImm(l, imm)) = 13 * 2^28 + l * 2^25 + imm`. -/
def immWord (l : RegIx) (imm : Imm) : Word :=
  BitVec.ofNat 32 (13 * 2 ^ 28 + l.toNat * 2 ^ 25 + imm.toNat)

/-- R114, D19: the canonical encoding, with zeros in the don't-care bits. -/
def encode : Instr → Word
  | .cmov a b c => threeWord 0 a b c
  | .sload a b c => threeWord 1 a b c
  | .sstore a b c => threeWord 2 a b c
  | .add a b c => threeWord 3 a b c
  | .mul a b c => threeWord 4 a b c
  | .div a b c => threeWord 5 a b c
  | .nand a b c => threeWord 6 a b c
  | .halt a b c => threeWord 7 a b c
  | .map a b c => threeWord 8 a b c
  | .unmap a b c => threeWord 9 a b c
  | .out a b c => threeWord 10 a b c
  | .inp a b c => threeWord 11 a b c
  | .loadp a b c => threeWord 12 a b c
  | .loadi l imm => immWord l imm

/-- The word whose low `nbits` bits are those of `w` and whose other bits are 0: an instruction is one
Word, and within it the bits are taken by numeric position, so there is no byte order to apply
(20_memory R76, 30_encoding R100). -/
def tableWord (nbits w : Nat) : Word := BitVec.ofNat 32 (w % 2 ^ nbits)

/-- What the decoder reads from an instruction of the opcode table whose bits are `w`. -/
def decodeTableWord (nbits w : Nat) : Option Instr :=
  if nbits ≤ 32 then
    match decode (tableWord nbits w) with
    | .ok i => some i
    | .error _ => none
  else none

end Sys2Proof
end

