-- ==== Sys2Proof/Machine/State.lean ====
section
/-! DEFINITION. The machine's state as plain data (10_state R20), what a step can stop with, and the state
after reset (10_state R43). -/

namespace Sys2Proof.Machine

/-- 20_memory R60, R61: a segment: its length in Words, and the Words that are not 0 as (offset, Word)
pairs. An offset below the length that is not listed reads as 0, the value of every newly allocated
Word (R65). The canonical form is `Segment.wf` of Ops.lean. The spec's unit of memory is the Word and no
byte exists inside the machine (R76, R79), so cells hold Words. Log entry 3. -/
structure Segment where
  len : Nat
  cells : List (Nat × Word)
deriving DecidableEq, Repr

/-- 10_state R38, R39; 20_memory R60: the segment memory: `segs`, indexed by handle, and the stack `free`
of handles available for reuse, top first. -/
structure Memory where
  segs : List Segment
  free : List Nat
deriving DecidableEq, Repr

/-- 60_exceptions R201: the causes of a fatal stop, each with the `info` it records. -/
inductive FatalCause where
  /-- code 1: a fetch at a pc outside segment 0 (R202) -/
  | fetchOutOfRange (pc : Word)
  /-- code 2: a word with opcode 14 or 15 (R203) -/
  | illegalOpcode (pc w : Word)
  /-- code 3: a load or store at an invalid address (R204) -/
  | segmentAccessFault (handle offset : Word)
  /-- code 4: a division by 0 (R205) -/
  | divideByZero
  /-- code 5: an unmap of handle 0, of a free handle or of one out of range (R206) -/
  | invalidUnmap (handle : Word)
  /-- code 6: a load program from a handle that is not live (R208) -/
  | invalidProgramHandle (handle : Word)
  /-- code 7: an allocation that is refused (R209) -/
  | allocationFailure (size : Word)
deriving DecidableEq, Repr

/-- 10_state R35: the run status. -/
inductive Status where
  | running
  | halted
  | fatal (cause : FatalCause)
deriving DecidableEq, Repr

/-- 44_io R183, D15: the guest input stream, the parameter `input`, as plain data: with `endless := false`
it is `bytes` and then end of stream; with `endless := true` it never ends, and after `bytes` come the
free values Config.inputByte. Log entry 7. -/
structure InputStream where
  bytes : List Byte
  endless : Bool
deriving DecidableEq, Repr

/-- 20_memory R72, D13: the parameter `alloc_ok`, as plain data: `always` is the document's idealised
machine, `never` refuses every allocation, `config` is the free predicate Config.allocOk. Log entry 8. -/
inductive AllocPolicy where
  | always
  | never
  | config
deriving DecidableEq, Repr

/-- 10_state R20: the complete state of the machine, and after it the two parameters of 00_scope R5 that
a step reads. -/
structure State where
  /-- the general registers `x[0..7]` (R24, R25) -/
  regs : Vector Word 8
  /-- the program counter, in Words of segment 0 (R29) -/
  pc : Word
  /-- `segs` and `free` (R38, R39) -/
  mem : Memory
  /-- the run status (R35) -/
  status : Status
  /-- instructions executed since reset (R36) -/
  icount : Nat
  /-- input bytes consumed (R40) -/
  inPos : Nat
  /-- output bytes emitted, oldest first (R40) -/
  out : List Byte
  /-- MODEL's own: the parameter `input` (R5) -/
  input : InputStream
  /-- MODEL's own: the parameter `alloc_ok` (R5) -/
  alloc : AllocPolicy
deriving DecidableEq, Repr

/-- Why a step stops the run in the host's sense. Only a step from a terminal state does, because there "no
step is taken and no state changes" (40_step R131). A fatal stop itself is entered by a NEXT state whose
status is `fatal` (60_exceptions R210). Log entry 4. -/
inductive Fault where
  /-- raised by `step` when the status is already Halted (R131); safe: the run has ended gracefully -/
  | halted
  /-- raised by `step` when the status is already Fatal (R131, R213); safe: the run has ended -/
  | fatalStop (cause : FatalCause)
deriving DecidableEq, Repr

/-- Why an instruction has no meaning. -/
inductive Refusal where
  /-- an instruction whose arm of exec has no meaning yet; safe; raised by no arm of this model -/
  | notModelled (mnemonic : String)
deriving DecidableEq, Repr

/-- 10_state R43, 70_reset R230 to R232: right after reset, with an empty boot image (R237; log entry 6) and
the parameters of log entries 7 and 8. Machine/Boot.lean gives reset with every boot image. -/
def State.reset : State where
  regs := #v[0, 0, 0, 0, 0, 0, 0, 0]
  pc := 0
  mem := { segs := [{ len := 0, cells := [] }], free := [] }
  status := .running
  icount := 0
  inPos := 0
  out := []
  input := { bytes := [], endless := false }
  alloc := .always

end Sys2Proof.Machine
end

