-- ==== Sys2Proof/Machine/Ops.lean ====
section
/-! DEFINITION. The named operations on registers, the segment memory (20_memory R62 to R72), the two byte
channels (44_io R182, R183) and the sequencer (40_step R132 to R134), and the fatal stop (60_exceptions
R207, R210). -/

namespace Sys2Proof.Machine

/-! ## Registers -/

theorem regIx_lt (i : RegIx) : i.toNat < 8 := i.isLt

/-- 00_scope R7: `x[i]`. In a meaning the state is the one at the start of dispatch, so this is the operand
snapshot of 40_step R135. -/
def State.reg (s : State) (i : RegIx) : Word := s.regs[i.toNat]'(regIx_lt i)

/-- 00_scope R7: `x[i] <- v`. No register is hardwired (10_state R25). -/
def State.setReg (s : State) (i : RegIx) (v : Word) : State :=
  { s with regs := s.regs.set i.toNat v (regIx_lt i) }

/-- `pc <- t` (00_scope R7). -/
def State.setPc (s : State) (t : Word) : State := { s with pc := t }

def State.setMem (s : State) (m : Memory) : State := { s with mem := m }

def State.setStatus (s : State) (st : Status) : State := { s with status := st }

/-! ## The words of one segment -/

/-- The Word listed for offset `o`, or 0 where none is listed (20_memory R65). -/
def cellsGet : List (Nat × Word) → Nat → Word
  | [], _ => 0#32
  | (k, v) :: rest, o => if k = o then v else cellsGet rest o

/-- Write a Word at offset `o`, keeping the list sorted and free of entries that hold 0. -/
def cellsSet : List (Nat × Word) → Nat → Word → List (Nat × Word)
  | [], o, v => if v = 0#32 then [] else [(o, v)]
  | (k, w) :: rest, o, v =>
    if o < k then (if v = 0#32 then (k, w) :: rest else (o, v) :: (k, w) :: rest)
    else if o = k then (if v = 0#32 then rest else (o, v) :: rest)
    else (k, w) :: cellsSet rest o v

/-- The canonical form of a segment's cells: offsets strictly rising from `lo` on and below `len`, no
entry equal to 0. -/
def cellsWf (len : Nat) : Nat → List (Nat × Word) → Bool
  | _, [] => true
  | lo, (k, v) :: rest => decide (lo ≤ k) && decide (k < len) && decide (v ≠ 0#32) && cellsWf len (k + 1) rest

/-- The cells of a list of Words whose first stands at offset `o`. -/
def cellsOf : Nat → List Word → List (Nat × Word)
  | _, [] => []
  | o, w :: ws => if w = 0#32 then cellsOf (o + 1) ws else (o, w) :: cellsOf (o + 1) ws

/-- The Word at offset `o`; meaningful for `o` below the length. -/
def Segment.get (g : Segment) (o : Nat) : Word := cellsGet g.cells o

/-- Replace the Word at offset `o`; the length stays (20_memory R68). -/
def Segment.set (g : Segment) (o : Nat) (v : Word) : Segment := { g with cells := cellsSet g.cells o v }

/-- `zeros(n)`: `n` Words, all 0 (20_memory R64, R65). -/
def Segment.zeros (n : Nat) : Segment := { len := n, cells := [] }

/-- The segment that holds the given Words. -/
def Segment.ofWords (ws : List Word) : Segment := { len := ws.length, cells := cellsOf 0 ws }

/-- A canonical segment of at most `MAX_SEG_LEN` Words (20_memory R61, 10_state R44 (d)). -/
def Segment.wf (g : Segment) : Bool := decide (g.len ≤ Config.maxSegLen) && cellsWf g.len 0 g.cells

/-! ## The segment memory -/

/-- 10_state R38: `count`, the number of handle slots, live or free. -/
def Memory.count (m : Memory) : Nat := m.segs.length

/-- 10_state R39: in range and not on the free-list. -/
def Memory.live (m : Memory) (h : Nat) : Bool := decide (h < m.count) && !m.free.contains h

/-- The segment in slot `h`; an empty one where there is no slot. -/
def Memory.seg (m : Memory) (h : Nat) : Segment := (m.segs[h]?).getD (Segment.zeros 0)

/-- 00_scope R7: `len(h)`. -/
def Memory.segLen (m : Memory) (h : Nat) : Nat := (m.seg h).len

/-- 20_memory R62: `new(initial_words)`. -/
def Memory.new (initialWords : List Word) : Memory :=
  { segs := [Segment.ofWords initialWords], free := [] }

/-- 20_memory R67: `load(handle, offset)`. The checks stand in the order of 60_exceptions R212. -/
def Memory.load (m : Memory) (h o : Word) : Except FatalCause Word :=
  if m.count ≤ h.toNat then .error (.segmentAccessFault h o)
  else if m.free.contains h.toNat then .error (.segmentAccessFault h o)
  else if m.segLen h.toNat ≤ o.toNat then .error (.segmentAccessFault h o)
  else .ok ((m.seg h.toNat).get o.toNat)

/-- 20_memory R68: `store(handle, offset, value)`. -/
def Memory.store (m : Memory) (h o v : Word) : Except FatalCause Memory :=
  if m.count ≤ h.toNat then .error (.segmentAccessFault h o)
  else if m.free.contains h.toNat then .error (.segmentAccessFault h o)
  else if m.segLen h.toNat ≤ o.toNat then .error (.segmentAccessFault h o)
  else .ok { m with segs := m.segs.set h.toNat ((m.seg h.toNat).set o.toNat v) }

/-- 20_memory R69: `fetch_instruction_word(pc)`. -/
def Memory.fetch (m : Memory) (p : Word) : Except FatalCause Word :=
  if m.segLen 0 ≤ p.toNat then .error (.fetchOutOfRange p)
  else .ok ((m.seg 0).get p.toNat)

/-- 20_memory R64: `allocate(size)`, with the answer `ok` of `alloc_ok` (R72): the handle and the new
memory. -/
def Memory.allocate (m : Memory) (ok : Bool) (size : Word) : Except FatalCause (Nat × Memory) :=
  if ok = false then .error (.allocationFailure size)
  else match m.free with
    | h :: rest => .ok (h, { segs := m.segs.set h (Segment.zeros size.toNat), free := rest })
    | [] =>
      if m.count = Config.maxHandles then .error (.allocationFailure size)
      else .ok (m.count, { m with segs := m.segs ++ [Segment.zeros size.toNat] })

/-- 20_memory R66: `deallocate(handle)`. The second and third checks are the spec's decisions D10 and
D11. -/
def Memory.deallocate (m : Memory) (h : Word) : Except FatalCause Memory :=
  if m.count ≤ h.toNat then .error (.invalidUnmap h)
  else if h = 0#32 then .error (.invalidUnmap h)
  else if m.free.contains h.toNat then .error (.invalidUnmap h)
  else .ok { segs := m.segs.set h.toNat (Segment.zeros 0), free := h.toNat :: m.free }

/-- 20_memory R70: `load_program(handle)`. -/
def Memory.loadProgram (m : Memory) (h : Word) : Except FatalCause Memory :=
  if m.count ≤ h.toNat then .error (.invalidProgramHandle h)
  else if m.free.contains h.toNat then .error (.invalidProgramHandle h)
  else .ok { m with segs := m.segs.set 0 (m.seg h.toNat) }

/-- 10_state R44 with the canonical form of the cells: at least one slot and at most `MAX_HANDLES`; every
segment canonical; every free handle in range, not 0, listed once, its slot empty. -/
abbrev Memory.wf (m : Memory) : Prop :=
  0 < m.count ∧ m.count ≤ Config.maxHandles ∧ (∀ g ∈ m.segs, g.wf = true) ∧ m.free.Nodup ∧
    ∀ h ∈ m.free, h ≠ 0 ∧ h < m.count ∧ m.seg h = Segment.zeros 0

/-- For the host: the word `w` stands at offset `p` of segment 0, which is made long enough to hold it.
No instruction does this. -/
def Memory.placeWord (m : Memory) (p : Nat) (w : Word) : Memory :=
  match m.segs with
  | [] => { m with segs := [{ len := p + 1, cells := cellsSet [] p w }] }
  | g :: rest => { m with segs := { len := max g.len (p + 1), cells := cellsSet g.cells p w } :: rest }

/-! ## Parameters: `alloc_ok` and `input` -/

/-- 20_memory R72: `alloc_ok(size)` in the current state. -/
def State.allocOk (s : State) (size : Word) : Bool :=
  match s.alloc with
  | .always => true
  | .never => false
  | .config => Config.allocOk s size

/-- 44_io R183: byte `i` of the stream, or `none` where the stream has ended. -/
def InputStream.byte (inp : InputStream) (i : Nat) : Option Byte :=
  match inp.bytes[i]? with
  | some b => some b
  | none => if inp.endless then some (Config.inputByte i) else none

/-- 44_io R183: `InByte()`: the byte taken, or `none` for EOS, and the state with `in_pos` after it. -/
def State.inByte (s : State) : Option Byte × State :=
  match s.input.byte s.inPos with
  | some b => (some b, { s with inPos := s.inPos + 1 })
  | none => (none, s)

/-- 44_io R182: `OutByte(b)`: append a byte to the output. -/
def State.outByte (s : State) (b : Byte) : State := { s with out := s.out ++ [b] }

/-! ## The fatal stop -/

/-- 60_exceptions R210: entering a fatal stop sets the status "and that is all". -/
def State.fatalStop (s : State) (cause : FatalCause) : State := s.setStatus (.fatal cause)

/-- 60_exceptions R207: an instruction whose operation raised changes nothing but the status; one whose
operation went through has its result. There is no return from a fatal stop (R213). -/
def State.settle (s : State) : Except FatalCause State → State
  | .ok t => t
  | .error cause => s.fatalStop cause

/-- The outcome of a meaning: always a next state (60_exceptions R210, log entry 4). -/
def conclude (s : State) (r : Except FatalCause State) : Host.Outcome State Fault Refusal :=
  .next (s.settle r)

/-- 60_exceptions R201: the numeric code of a cause, which the host reads. -/
def FatalCause.code : FatalCause → Nat
  | .fetchOutOfRange _ => 1
  | .illegalOpcode _ _ => 2
  | .segmentAccessFault _ _ => 3
  | .divideByZero => 4
  | .invalidUnmap _ => 5
  | .invalidProgramHandle _ => 6
  | .allocationFailure _ => 7

/-! ## The sequencer -/

/-- 40_step R134, R140: advance the pc modulo 2^32 and count the instruction. -/
def State.advance (s : State) : State := { s with pc := s.pc + 1, icount := s.icount + 1 }

/-- 40_step R132, R133: fetch the word at the pc of the current segment 0 and decode it. -/
def State.fetchInstr (s : State) : Except FatalCause Instr :=
  match s.mem.fetch s.pc with
  | .error cause => .error cause
  | .ok w =>
    match decode w with
    | .error _ => .error (.illegalOpcode s.pc w)
    | .ok i => .ok i

/-- 40_step R131: from a terminal state no step is taken: the stop is named (log entry 4). `none` while the
machine runs. -/
def State.terminal (s : State) : Option Fault :=
  match s.status with
  | .running => none
  | .halted => some .halted
  | .fatal cause => some (.fatalStop cause)

end Sys2Proof.Machine
end

