-- ==== Sys2Proof/Machine/Flags.lean ====
section
/-! DEFINITION. The machine has no flags, condition codes or predicate registers, and no instruction
records carry, overflow, zero or sign (10_state R33). What stands here is the one test that some
instructions make on a register's content: all 32 bits against 0 (41_cmov R150 corner case 2, 42 R162,
45 R190). -/

namespace Sys2Proof.Machine

/-- Whether the content of register `i` is not 0, on all 32 bits. -/
def State.nonZero (s : State) (i : RegIx) : Bool := s.reg i != 0#32

end Sys2Proof.Machine
end

