-- ==== Sys2Proof/Machine/Operands.lean ====
section
/-! DEFINITION. The operand forms (30_encoding R107, R108): a register named by a 3-bit field, which is
`State.reg` of Ops.lean, and the one immediate; and the two forms in which a byte meets a register
(20_memory R77). There are no addressing modes (R108). -/

namespace Sys2Proof.Machine

/-- 00_scope R7, 30_encoding R107: `zext_32(imm)`, not scaled and not sign-extended. -/
def immOperand (imm : Imm) : Word := imm.setWidth 32

/-- 44_io R180: `x[c][7:0]`, the byte Output emits. -/
def lowByte (w : Word) : Byte := w.extractLsb' 0 8

/-- 44_io R181: what Input writes: the byte zero-extended, or 2^32 - 1 at end of stream. -/
def inputWord : Option Byte → Word
  | some b => b.setWidth 32
  | none => 0xFFFFFFFF#32

end Sys2Proof.Machine
end

