-- ==== Sys2Proof/Machine/Arithmetic.lean ====
section
/-! DEFINITION. Add, Multiply, Divide, Bitwise NAND (42_arithmetic_logic) and Load immediate
(46_load_immediate). -/

namespace Sys2Proof.Machine

/-- R162, R165: `a udiv b`, partial: there is no quotient by 0. -/
def udiv (dividend divisor : Word) : Except FatalCause Word :=
  if divisor = 0#32 then .error .divideByZero else .ok (BitVec.ofNat 32 (dividend.toNat / divisor.toNat))

/-- R163: `~32 (v & w)`. -/
def nand32 (v w : Word) : Word := ~~~(v &&& w)

/-- R160: `x[a] <- (x[b] + x[c]) mod 2^32`. -/
def execAdd (a b c : RegIx) (s : State) : Host.Outcome State Fault Refusal :=
  conclude s (.ok (s.setReg a (s.reg b + s.reg c)))

/-- R161: `x[a] <- (x[b] * x[c]) mod 2^32`. -/
def execMul (a b c : RegIx) (s : State) : Host.Outcome State Fault Refusal :=
  conclude s (.ok (s.setReg a (s.reg b * s.reg c)))

/-- R162: `if x[c] = 0 then raise FatalDivideByZero()`, otherwise `x[a] <- floor(x[b] / x[c])`. -/
def execDiv (a b c : RegIx) (s : State) : Host.Outcome State Fault Refusal :=
  conclude s ((udiv (s.reg b) (s.reg c)).map fun q => s.setReg a q)

/-- R163: `x[a] <- ~32 (x[b] & x[c])`. -/
def execNand (a b c : RegIx) (s : State) : Host.Outcome State Fault Refusal :=
  conclude s (.ok (s.setReg a (nand32 (s.reg b) (s.reg c))))

/-- R195: `x[l] <- zext_32(imm)`. -/
def execLoadi (l : RegIx) (imm : Imm) (s : State) : Host.Outcome State Fault Refusal :=
  conclude s (.ok (s.setReg l (immOperand imm)))

end Sys2Proof.Machine
end

