-- ==== Sys2Proof/Machine/Control.lean ====
section
/-! DEFINITION. Halt, Map segment, Unmap segment (43_halt_and_segment_management) and Load program
(45_load_program). -/

namespace Sys2Proof.Machine

/-- R170: `status <- Halted`; the three fields are ignored. -/
def execHalt (_a _b _c : RegIx) (s : State) : Host.Outcome State Fault Refusal :=
  conclude s (.ok (s.setStatus .halted))

/-- R171: `x[b] <- allocate(x[c])`; field `a` is ignored. A handle is below 2^32, because a fresh one is
handed out only while `count` is below `MAX_HANDLES`. -/
def execMap (_a b c : RegIx) (s : State) : Host.Outcome State Fault Refusal :=
  conclude s ((s.mem.allocate (s.allocOk (s.reg c)) (s.reg c)).map
    fun r => (s.setMem r.2).setReg b (BitVec.ofNat 32 r.1))

/-- R172: `deallocate(x[c])`; fields `a` and `b` are ignored and no register is written. -/
def execUnmap (_a _b c : RegIx) (s : State) : Host.Outcome State Fault Refusal :=
  conclude s ((s.mem.deallocate (s.reg c)).map fun m => s.setMem m)

/-- R190: `if x[b] != 0 then load_program(x[b])`, and then `pc <- x[c]`, which is not checked here (D23);
field `a` is ignored. -/
def execLoadp (_a b c : RegIx) (s : State) : Host.Outcome State Fault Refusal :=
  conclude s ((if s.nonZero b then s.mem.loadProgram (s.reg b) else .ok s.mem).map
    fun m => (s.setMem m).setPc (s.reg c))

end Sys2Proof.Machine
end

