-- ==== Sys2Proof/Machine/Io.lean ====
section
/-! DEFINITION. Output and Input (44_io). The input is a given sequence, so neither ever waits (R145, R184;
log entry 9). -/

namespace Sys2Proof.Machine

/-- R180: `OutByte(x[c][7:0])`; fields `a` and `b` are ignored. -/
def execOut (_a _b c : RegIx) (s : State) : Host.Outcome State Fault Refusal :=
  conclude s (.ok (s.outByte (lowByte (s.reg c))))

/-- R181: `x[c]` takes the next byte, or 2^32 - 1 at end of stream; fields `a` and `b` are ignored. -/
def execInp (_a _b c : RegIx) (s : State) : Host.Outcome State Fault Refusal :=
  conclude s (.ok (s.inByte.2.setReg c (inputWord s.inByte.1)))

end Sys2Proof.Machine
end

