-- ==== Sys2Proof/Machine/Segment.lean ====
section
/-! DEFINITION. Conditional move, Segmented load, Segmented store (41_cmov_and_segment_access). In every
meaning the state is the one after the pc was advanced (00_scope R7), and registers are read from it before
anything is written (40_step R135). -/

namespace Sys2Proof.Machine

/-- R150: `if x[c] != 0 then x[a] <- x[b]`. -/
def execCmov (a b c : RegIx) (s : State) : Host.Outcome State Fault Refusal :=
  conclude s (.ok (if s.nonZero c then s.setReg a (s.reg b) else s))

/-- R151: `x[a] <- load(x[b], x[c])`. -/
def execSload (a b c : RegIx) (s : State) : Host.Outcome State Fault Refusal :=
  conclude s ((s.mem.load (s.reg b) (s.reg c)).map fun v => s.setReg a v)

/-- R152: `store(x[a], x[b], x[c])`; there is no destination register. -/
def execSstore (a b c : RegIx) (s : State) : Host.Outcome State Fault Refusal :=
  conclude s ((s.mem.store (s.reg a) (s.reg b) (s.reg c)).map fun m => s.setMem m)

end Sys2Proof.Machine
end

