-- ==== Sys2Proof/Machine/Step.lean ====
section
/-! DEFINITION. The step (40_step R130): it only calls the operations of Ops.lean and exec. -/

namespace Sys2Proof.Machine

/-- R130 to R134, R140: from a terminal state no step; otherwise fetch, decode, advance, dispatch. A fetch
or a decode that fails ends the step with a fatal stop and "no other change" (R132, R133). -/
def step (s : State) : Host.Outcome State Fault Refusal :=
  match s.terminal with
  | some f => .fault f
  | none =>
    match s.fetchInstr with
    | .error cause => .next (s.fatalStop cause)
    | .ok i => exec i s.advance

/-- For the host: `s` with the table's word where `step` fetches next: at offset `pc` of segment 0, which is
made long enough, and the status Running, without which nothing is fetched (R131). Log entry 5. -/
def State.withFetchWord (s : State) (nbits w : Nat) : State :=
  { s with status := .running, mem := s.mem.placeWord s.pc.toNat (tableWord nbits w) }

end Sys2Proof.Machine
end

