-- ==== Sys2Proof/Machine/Assembler.lean ====
section
/-! DEFINITION. The assembler syntax of 30_encoding R118 to R121: the fourteen written forms, the one directive,
labels, comments, and the disassembler of R121. It is a notation for words, no part of the machine (log entry 11). A
source text is a list of characters. -/

namespace Sys2Proof.Machine

/-- R118: where an immediate is allowed, a number or a label. -/
inductive AsmImm where
  | num (n : Nat)
  | label (name : List Char)
deriving DecidableEq, Repr

/-- R119, R120: one written statement: an operation with only the fields it uses, or `.word`. -/
inductive Asm where
  | cmov (a b c : RegIx)
  | sload (a b c : RegIx)
  | sstore (a b c : RegIx)
  | add (a b c : RegIx)
  | mul (a b c : RegIx)
  | div (a b c : RegIx)
  | nand (a b c : RegIx)
  | halt
  | map (b c : RegIx)
  | unmap (c : RegIx)
  | out (c : RegIx)
  | inp (c : RegIx)
  | loadp (b c : RegIx)
  | loadi (l : RegIx) (imm : AsmImm)
  | word (w : Word)
deriving DecidableEq, Repr

/-- The offset a label names, in a list of labels and offsets. -/
def labelOffset : List (List Char × Nat) → List Char → Option Nat
  | [], _ => none
  | (name, off) :: rest, want => if name = want then some off else labelOffset rest want

/-- R118: the value of an immediate, 0 to 33554431. -/
def asmImmValue (labels : List (List Char × Nat)) (imm : AsmImm) : Option Imm :=
  match (match imm with | .num n => some n | .label name => labelOffset labels name) with
  | some n => if n < 2 ^ 25 then some (BitVec.ofNat 25 n) else none
  | none => none

/-- R119: the word a statement assembles to; the fields not written are 0 (R118). -/
def assemble (labels : List (List Char × Nat)) : Asm → Option Word
  | .cmov a b c => some (BitVec.ofNat 32 (0x00000000 + a.toNat * 64 + b.toNat * 8 + c.toNat))
  | .sload a b c => some (BitVec.ofNat 32 (0x10000000 + a.toNat * 64 + b.toNat * 8 + c.toNat))
  | .sstore a b c => some (BitVec.ofNat 32 (0x20000000 + a.toNat * 64 + b.toNat * 8 + c.toNat))
  | .add a b c => some (BitVec.ofNat 32 (0x30000000 + a.toNat * 64 + b.toNat * 8 + c.toNat))
  | .mul a b c => some (BitVec.ofNat 32 (0x40000000 + a.toNat * 64 + b.toNat * 8 + c.toNat))
  | .div a b c => some (BitVec.ofNat 32 (0x50000000 + a.toNat * 64 + b.toNat * 8 + c.toNat))
  | .nand a b c => some (BitVec.ofNat 32 (0x60000000 + a.toNat * 64 + b.toNat * 8 + c.toNat))
  | .halt => some 0x70000000#32
  | .map b c => some (BitVec.ofNat 32 (0x80000000 + b.toNat * 8 + c.toNat))
  | .unmap c => some (BitVec.ofNat 32 (0x90000000 + c.toNat))
  | .out c => some (BitVec.ofNat 32 (0xA0000000 + c.toNat))
  | .inp c => some (BitVec.ofNat 32 (0xB0000000 + c.toNat))
  | .loadp b c => some (BitVec.ofNat 32 (0xC0000000 + b.toNat * 8 + c.toNat))
  | .loadi l imm =>
    (asmImmValue labels imm).map fun v => BitVec.ofNat 32 (0xD0000000 + l.toNat * 33554432 + v.toNat)
  | .word w => some w

/-- The written form of an instruction, its unused fields left out (R118). -/
def writtenForm : Instr → Asm
  | .cmov a b c => .cmov a b c
  | .sload a b c => .sload a b c
  | .sstore a b c => .sstore a b c
  | .add a b c => .add a b c
  | .mul a b c => .mul a b c
  | .div a b c => .div a b c
  | .nand a b c => .nand a b c
  | .halt _ _ _ => .halt
  | .map _ b c => .map b c
  | .unmap _ _ c => .unmap c
  | .out _ _ c => .out c
  | .inp _ _ c => .inp c
  | .loadp _ b c => .loadp b c
  | .loadi l imm => .loadi l (.num imm.toNat)

/-- R121: a disassembler: the written form where it loses nothing, and otherwise `.word`. -/
def disassemble (w : Word) : Asm :=
  match decode w with
  | .error _ => .word w
  | .ok i => if canonicalWord w && i.unusedFieldsZero then writtenForm i else .word w

/-! ## The text (R118) -/

/-- The value of a digit in a base of at most 16. -/
def digitValue (base : Nat) (ch : Char) : Option Nat :=
  let n := ch.toNat
  let v := if 48 ≤ n ∧ n ≤ 57 then n - 48 else if 97 ≤ n ∧ n ≤ 102 then n - 87
    else if 65 ≤ n ∧ n ≤ 70 then n - 55 else 16
  if v < base then some v else none

/-- The number that a list of digits writes, read on from `acc`. -/
def digitsValue (base : Nat) : Nat → List Char → Option Nat
  | acc, [] => some acc
  | acc, ch :: rest =>
    match digitValue base ch with
    | some d => digitsValue base (acc * base + d) rest
    | none => none

/-- R118: a decimal or `0x` hexadecimal number. -/
def parseNumber : List Char → Option Nat
  | [] => none
  | ['0', 'x'] => none
  | '0' :: 'x' :: ds => digitsValue 16 0 ds
  | ds => digitsValue 10 0 ds

/-- R118: a register, `r0` to `r7`. -/
def parseReg : List Char → Option RegIx
  | ['r', d] => (digitValue 8 d).map (BitVec.ofNat 3)
  | _ => none

def isBlank (ch : Char) : Bool := ch == ' ' || ch == '\t' || ch == '\r'

def trimBlank (cs : List Char) : List Char :=
  ((cs.dropWhile isBlank).reverse.dropWhile isBlank).reverse

/-- The pieces of a list between separators. -/
def splitAtChar (sep : Char) : List Char → List (List Char)
  | [] => [[]]
  | ch :: rest =>
    if ch = sep then [] :: splitAtChar sep rest
    else match splitAtChar sep rest with
      | [] => [[ch]]
      | p :: ps => (ch :: p) :: ps

/-- R118: a label's name starts with a letter or an underscore. -/
def isName : List Char → Bool
  | [] => false
  | ch :: rest => (ch.isAlpha || ch == '_') && rest.all fun x => x.isAlphanum || x == '_'

def parseImm (cs : List Char) : Option AsmImm :=
  match parseNumber cs with
  | some n => some (.num n)
  | none => if isName cs then some (.label cs) else none

/-- Three register operands, in the order `a`, `b`, `c`. -/
def threeRegs (f : RegIx → RegIx → RegIx → Asm) : List (List Char) → Option Asm
  | [x, y, z] => do return f (← parseReg x) (← parseReg y) (← parseReg z)
  | _ => none

def twoRegs (f : RegIx → RegIx → Asm) : List (List Char) → Option Asm
  | [x, y] => do return f (← parseReg x) (← parseReg y)
  | _ => none

def oneReg (f : RegIx → Asm) : List (List Char) → Option Asm
  | [x] => do return f (← parseReg x)
  | _ => none

/-- R118 to R120: a mnemonic in lower case, or `.word`, with its operands. -/
def parseForm (mnemonic : List Char) (ops : List (List Char)) : Option Asm :=
  match mnemonic with
  | ['c', 'm', 'o', 'v'] => threeRegs .cmov ops
  | ['s', 'l', 'o', 'a', 'd'] => threeRegs .sload ops
  | ['s', 's', 't', 'o', 'r', 'e'] => threeRegs .sstore ops
  | ['a', 'd', 'd'] => threeRegs .add ops
  | ['m', 'u', 'l'] => threeRegs .mul ops
  | ['d', 'i', 'v'] => threeRegs .div ops
  | ['n', 'a', 'n', 'd'] => threeRegs .nand ops
  | ['h', 'a', 'l', 't'] => if ops = [] then some .halt else none
  | ['m', 'a', 'p'] => twoRegs .map ops
  | ['u', 'n', 'm', 'a', 'p'] => oneReg .unmap ops
  | ['o', 'u', 't'] => oneReg .out ops
  | ['i', 'n'] => oneReg .inp ops
  | ['l', 'o', 'a', 'd', 'p'] => twoRegs .loadp ops
  | ['l', 'o', 'a', 'd', 'i'] =>
    match ops with
    | [x, y] => do return .loadi (← parseReg x) (← parseImm y)
    | _ => none
  | ['.', 'w', 'o', 'r', 'd'] =>
    match ops with
    | [x] =>
      match parseNumber x with
      | some n => if n < 2 ^ 32 then some (.word (BitVec.ofNat 32 n)) else none
      | none => none
    | _ => none
  | _ => none

/-- The statement of a line whose label and comment are off; `none` is an error, `some none` an empty
line. -/
def parseStatement (cs : List Char) : Option (Option Asm) :=
  let body := trimBlank cs
  if body = [] then some none
  else
    let mnemonic := body.takeWhile fun ch => !isBlank ch
    let rest := trimBlank (body.dropWhile fun ch => !isBlank ch)
    let ops := if rest = [] then [] else (splitAtChar ',' rest).map trimBlank
    (parseForm mnemonic ops).map some

/-- R118: one line: `;` starts a comment, `label:` comes before the statement. -/
def parseLine (cs : List Char) : Option (Option (List Char) × Option Asm) :=
  let code := cs.takeWhile fun ch => ch != ';'
  match splitAtChar ':' code with
  | [body] => (parseStatement body).map fun st => (none, st)
  | [name, body] =>
    if isName (trimBlank name) then (parseStatement body).map fun st => (some (trimBlank name), st) else none
  | _ => none

def parseLines : List (List Char) → Option (List (Option (List Char) × Option Asm))
  | [] => some []
  | l :: ls => do return (← parseLine l) :: (← parseLines ls)

/-- R118: a label names the offset of the next word. -/
def labelsFrom : Nat → List (Option (List Char) × Option Asm) → List (List Char × Nat)
  | _, [] => []
  | off, (lab, st) :: rest =>
    (match lab with | some name => [(name, off)] | none => []) ++
      labelsFrom (if st.isSome then off + 1 else off) rest

def assembleLines (labels : List (List Char × Nat)) : List (Option (List Char) × Option Asm) → Option (List Word)
  | [] => some []
  | (_, none) :: rest => assembleLines labels rest
  | (_, some st) :: rest => do return (← assemble labels st) :: (← assembleLines labels rest)

/-- R118: the image a source text assembles to, or `none` where it is not in the syntax. -/
def assembleText (text : List Char) : Option (List Word) := do
  let lines ← parseLines (splitAtChar '\n' text)
  assembleLines (labelsFrom 0 lines) lines

end Sys2Proof.Machine
end

