-- ==== Sys2Proof/Machine/Boot.lean ====
section
/-! DEFINITION. Reset with a boot image, and what the loader owes the core (70_reset R230 to R237). -/

namespace Sys2Proof.Machine

/-- R234: the Word of four image bytes, the first being bits 31 to 24. -/
def wordOfBytes (b0 b1 b2 b3 : Byte) : Word :=
  BitVec.ofNat 32 (b0.toNat * 2 ^ 24 + b1.toNat * 2 ^ 16 + b2.toNat * 2 ^ 8 + b3.toNat)

/-- R234, R235: the Words of an image; `none` where a partial word trails (D17). -/
def wordsOfBytes : List Byte → Option (List Word)
  | [] => some []
  | b0 :: b1 :: b2 :: b3 :: rest => (wordsOfBytes rest).map (wordOfBytes b0 b1 b2 b3 :: ·)
  | [_] => none
  | [_, _] => none
  | [_, _, _] => none

/-- R235: the boot image that a file of bytes is, or `none` where it is not one. -/
def bootImage (bytes : List Byte) : Option (List Word) :=
  if imageLengthOk bytes.length then wordsOfBytes bytes else none

/-- R43, R230: the state after reset with `image` in segment 0, and the parameters of 00_scope R5. -/
def State.boot (image : List Word) (input : InputStream) (alloc : AllocPolicy) : State where
  regs := #v[0, 0, 0, 0, 0, 0, 0, 0]
  pc := 0
  mem := Memory.new image
  status := .running
  icount := 0
  inPos := 0
  out := []
  input := input
  alloc := alloc

/-- R230, D20: the reset event: it "may be applied in any state, including a terminal one, and always gives
the same state for the same image; nothing survives it". `none` where the image is longer than
`MAX_SEG_LEN` (R61, R235). -/
def State.resetWith (_s : State) (image : List Word) (input : InputStream) (alloc : AllocPolicy) : Option State :=
  if image.length ≤ Config.maxSegLen then some (State.boot image input alloc) else none

end Sys2Proof.Machine
end

