-- ==== Sys2Proof/Safety.lean ====
section
/-! DEFINITION. The terms in which claims about the machine are stated: reading one Word, valid addresses, the
invariant of 10_state R44, frames (what an instruction leaves unchanged) and safe states. -/

namespace Sys2Proof.Machine

/-- The Word at offset `o` of segment `h`. -/
def Memory.word (m : Memory) (h o : Nat) : Word := (m.seg h).get o

/-- 20_memory R61: "The address is valid when `h < count`, `h` is live and `o < len(h)`." -/
def ValidAddress (m : Memory) (h o : Word) : Prop :=
  h.toNat < m.count ∧ h.toNat ∉ m.free ∧ o.toNat < m.segLen h.toNat

/-- 20_memory R66: a handle that Unmap accepts. -/
def Unmappable (m : Memory) (h : Word) : Prop := h.toNat < m.count ∧ h.toNat ≠ 0 ∧ h.toNat ∉ m.free

/-- 20_memory R70: a handle that Load program accepts, when it is not 0. -/
def LiveHandle (m : Memory) (h : Word) : Prop := h.toNat < m.count ∧ h.toNat ∉ m.free

/-- 20_memory R72: the allocation of `size` Words is refused. -/
def AllocationRefused (s : State) (size : Word) : Prop :=
  s.allocOk size = false ∨ (s.mem.free = [] ∧ s.mem.count = Config.maxHandles)

/-- Every slot but `h` has the same length and the same Words in `m'` as in `m`. -/
def SameSegmentsBut (h : Nat) (m m' : Memory) : Prop :=
  ∀ h', h' ≠ h → m'.segLen h' = m.segLen h' ∧ ∀ o, m'.word h' o = m.word h' o

/-- Every register but `d` is unchanged. -/
def SameRegsBut (d : RegIx) (s t : State) : Prop := ∀ r, r ≠ d → t.reg r = s.reg r

/-- Every register is unchanged. -/
def SameRegs (s t : State) : Prop := ∀ r, t.reg r = s.reg r

/-- The status, the instruction count, the position in the input, the output and the model's own two fields
are unchanged. -/
def SameRunAndIo (s t : State) : Prop :=
  t.status = s.status ∧ t.icount = s.icount ∧ t.inPos = s.inPos ∧ t.out = s.out ∧ t.input = s.input ∧ t.alloc = s.alloc

/-- Nothing but register `d` may have changed: no other register, no Word, length, slot or free handle, nor the
pc (beyond the advance before dispatch). -/
def RegisterFrame (d : RegIx) (s t : State) : Prop :=
  SameRegsBut d s t ∧ t.pc = s.pc ∧ t.mem = s.mem ∧ SameRunAndIo s t

/-- Nothing but the segment memory may have changed. -/
def MemoryFrame (s t : State) : Prop := SameRegs s t ∧ t.pc = s.pc ∧ SameRunAndIo s t

/-- 10_state R44 (a) to (d) with the canonical form of the segments' cells, and 44_io R183: no more bytes have
been consumed than a stream that ends has. (e) holds by the types. -/
def State.Inv (s : State) : Prop :=
  s.mem.wf ∧ (s.input.endless = false → s.inPos ≤ s.input.bytes.length)

/-- 30_encoding R103, R105: the word is `base + low` with any value in bits 27 to `k`, the bits that nothing
reads; `base` is the opcode's match value (R109) and `low` lies below bit `k`. -/
def AnyHigh (k base low : Nat) (w : Word) : Prop := ∃ x, x < 2 ^ (28 - k) ∧ w.toNat = base + x * 2 ^ k + low

/-- 30_encoding R113: an instruction of the shape `Three(op, a, b, c)`, as numbers; `none` for `LoadImm`. -/
def threeFields : Instr → Option (Nat × Nat × Nat × Nat)
  | .cmov a b c => some (0, a.toNat, b.toNat, c.toNat)
  | .sload a b c => some (1, a.toNat, b.toNat, c.toNat)
  | .sstore a b c => some (2, a.toNat, b.toNat, c.toNat)
  | .add a b c => some (3, a.toNat, b.toNat, c.toNat)
  | .mul a b c => some (4, a.toNat, b.toNat, c.toNat)
  | .div a b c => some (5, a.toNat, b.toNat, c.toNat)
  | .nand a b c => some (6, a.toNat, b.toNat, c.toNat)
  | .halt a b c => some (7, a.toNat, b.toNat, c.toNat)
  | .map a b c => some (8, a.toNat, b.toNat, c.toNat)
  | .unmap a b c => some (9, a.toNat, b.toNat, c.toNat)
  | .out a b c => some (10, a.toNat, b.toNat, c.toNat)
  | .inp a b c => some (11, a.toNat, b.toNat, c.toNat)
  | .loadp a b c => some (12, a.toNat, b.toNat, c.toNat)
  | .loadi _ _ => none

/-- 40_step R136, R137: the register an instruction may write. -/
def destination : Instr → Option RegIx
  | .cmov a _ _ => some a
  | .sload a _ _ => some a
  | .sstore _ _ _ => none
  | .add a _ _ => some a
  | .mul a _ _ => some a
  | .div a _ _ => some a
  | .nand a _ _ => some a
  | .halt _ _ _ => none
  | .map _ b _ => some b
  | .unmap _ _ _ => none
  | .out _ _ _ => none
  | .inp _ _ c => some c
  | .loadp _ _ _ => none
  | .loadi l _ => some l

/-- 40_step R136 and the instructions' rules: the value an instruction writes to its destination register, in the
state at dispatch; `none` where it writes no register, because it has no destination, because its condition does
not hold or because it raises. -/
def valueWritten (i : Instr) (s : State) : Option Word :=
  match i with
  | .cmov _ b c => if s.reg c = 0#32 then none else some (s.reg b)
  | .sload _ b c => (s.mem.load (s.reg b) (s.reg c)).toOption
  | .add _ b c => some (s.reg b + s.reg c)
  | .mul _ b c => some (s.reg b * s.reg c)
  | .div _ b c => (udiv (s.reg b) (s.reg c)).toOption
  | .nand _ b c => some (nand32 (s.reg b) (s.reg c))
  | .map _ _ c => (s.mem.allocate (s.allocOk (s.reg c)) (s.reg c)).toOption.map fun r => BitVec.ofNat 32 r.1
  | .inp _ _ _ => some (inputWord s.inByte.1)
  | .loadi _ imm => some (immOperand imm)
  | .sstore _ _ _ => none
  | .halt _ _ _ => none
  | .unmap _ _ _ => none
  | .out _ _ _ => none
  | .loadp _ _ _ => none

/-- 40_step R136: the code (60_exceptions R201) of the one cause each opcode can raise in dispatch. -/
def raisable : Instr → Option Nat
  | .sload _ _ _ => some 3
  | .sstore _ _ _ => some 3
  | .div _ _ _ => some 4
  | .unmap _ _ _ => some 5
  | .loadp _ _ _ => some 6
  | .map _ _ _ => some 7
  | .cmov _ _ _ => none
  | .add _ _ _ => none
  | .mul _ _ _ => none
  | .nand _ _ _ => none
  | .halt _ _ _ => none
  | .out _ _ _ => none
  | .inp _ _ _ => none
  | .loadi _ _ => none

/-- A safe state: no fatal stop has occurred (60_exceptions R201). -/
def State.Safe (s : State) : Prop := ∀ c, s.status ≠ .fatal c

end Sys2Proof.Machine
end

