-- ==== Sys2Proof/Certificates/Slice0/Obligations.lean ====
section
/-! DEFINITION. The statements for the provers. A meaning runs on the state in which the pc has already been
advanced (00_scope R7), so in a statement about `exec` the pc of `s` is the address of the instruction plus 1. -/

open Sys2Proof Sys2Proof.Machine

/-! ## Encoding -/

/-- R115 (a), R113, R114: "For every Instruction `i`, `decode(encode(i)) = i`". -/
def Obligations.DecodeOfEncodeIsIdentity : Prop := ∀ i : Instr, decode (encode i) = .ok i

/-- R115 (c): `encode(decode(w)) = w` for every immediate-format word; for a three-register word it is
`w and 0xF00001FF`, which is `w` exactly when bits 27 to 9 are 0. -/
def Obligations.EncodeOfDecodeClearsDontCareBits : Prop :=
  ∀ (w : Word) (i : Instr), decode w = .ok i →
    (opcodeOf w = 13#4 → encode i = w) ∧
    (opcodeOf w ≠ 13#4 → encode i = w &&& 0xF00001FF#32 ∧ (encode i = w ↔ w.extractLsb' 9 19 = 0#19))

/-- R115 (d): "`decode` is not injective on three-register words: 2^19 words decode to each `Three`
Instruction": the words that decode to it are in one-to-one correspondence with the values of bits 27 to 9. -/
def Obligations.EachThreeRegisterInstrHasTwoToNineteenWords : Prop :=
  ∀ i : Instr, i.opcode ≠ 13 →
    ∃ f : BitVec 19 → Word, Function.Injective f ∧ ∀ w, decode w = .ok i ↔ ∃ x, f x = w

/-- R110: "The invalid words are exactly those with `w[31:29] = 7`, that is 0xE0000000 to 0xFFFFFFFF", the other
28 bits do not matter, and executing one is a fatal stop, cause IllegalOpcode. -/
def Obligations.OnlyOpcodesFourteenAndFifteenAreInvalid : Prop :=
  (∀ w : Word, (∃ e, decode w = .error e) ↔ 0xE0000000 ≤ w.toNat) ∧
  (∀ w : Word, (∃ e, decode w = .error e) ↔ w.extractLsb' 29 3 = 7#3) ∧
  (∀ (s : State) (w : Word), s.status = .running → s.mem.fetch s.pc = .ok w → 0xE0000000 ≤ w.toNat →
    ∃ t, step s = .next t ∧ t.status = .fatal (.illegalOpcode s.pc w))

/-- R106 and R115 (b), which the spec marks as its own decision (D3) and inference: the decoder's outputs `valid`
and `is_imm` say which words decode and which decode to a Load immediate; every encoded word is valid and
canonical. -/
def Obligations.ValidAndImmediateOutputsDescribeDecode : Prop :=
  (∀ w : Word, (∃ i, decode w = .ok i) ↔ validWord w = true) ∧
  (∀ w : Word, (∃ l imm, decode w = .ok (.loadi l imm)) ↔ immediateWord w = true) ∧
  (∀ i : Instr, validWord (encode i) = true ∧ canonicalWord (encode i) = true)

/-- R102, R103, R104: the opcode is bits 31 to 28; below 13 all three fields are extracted, whether or not the
operation uses them; for 13 the destination is bits 27 to 25 and the immediate bits 24 to 0. -/
def Obligations.DecodeReadsFieldsByPosition : Prop :=
  ∀ w : Word,
    (w.toNat / 2 ^ 28 ≤ 12 → ∃ i, decode w = .ok i ∧
      threeFields i = some (w.toNat / 2 ^ 28, w.toNat / 64 % 8, w.toNat / 8 % 8, w.toNat % 8)) ∧
    (w.toNat / 2 ^ 28 = 13 → ∃ l imm, decode w = .ok (.loadi l imm) ∧
      l.toNat = w.toNat / 2 ^ 25 % 8 ∧ imm.toNat = w.toNat % 2 ^ 25)

/-- R105: "They do not affect decoding": two words of opcodes 0 to 12 that differ only in bits 27 to 9 decode
alike; and a register field the operation does not use is ignored by dispatch (R108). -/
def Obligations.DontCareBitsAndUnusedFieldsAreIgnored : Prop :=
  (∀ w w' : Word, opcodeOf w ≠ 13#4 → w &&& 0xF00001FF#32 = w' &&& 0xF00001FF#32 → decode w = decode w') ∧
  (∀ (a b c : RegIx) (s : State),
    exec (.halt a b c) s = exec (.halt 0 0 0) s ∧ exec (.map a b c) s = exec (.map 0 b c) s ∧
    exec (.unmap a b c) s = exec (.unmap 0 0 c) s ∧ exec (.out a b c) s = exec (.out 0 0 c) s ∧
    exec (.inp a b c) s = exec (.inp 0 0 c) s ∧ exec (.loadp a b c) s = exec (.loadp 0 b c) s)

/-- 30_encoding R103, R104, R109, R110, one word of each family written out in bits: `sload r5, r2, r4`,
`add r3, r1, r2` with don't-care bits set, `map r2, r1`, `out r5`, `loadp r7, r0` with don't-care bits set,
`loadi r3, 42`, and the smallest invalid word. -/
def Obligations.SampleWordsDecodeAsEncodingSays : Prop :=
  decode 0b00010000000000000000000101010100#32 = .ok (.sload 5 2 4) ∧
  decode 0b00111010101111001101111011001010#32 = .ok (.add 3 1 2) ∧
  decode 0b10000000000000000000000000010001#32 = .ok (.map 0 2 1) ∧
  decode 0b10100000000000000000000000000101#32 = .ok (.out 0 0 5) ∧
  decode 0b11001111111111111111111000111000#32 = .ok (.loadp 0 7 0) ∧
  decode 0b11010110000000000000000000101010#32 = .ok (.loadi 3 42) ∧
  decode 0b11100000000000000000000000000000#32 = .error (.illegalOpcode 14)

/-- R119, R121: the disassembler prints a form that assembles to the same word, whatever the word. -/
def Obligations.AssembleOfDisassembleIsIdentity : Prop :=
  ∀ (labels : List (List Char × Nat)) (w : Word), assemble labels (disassemble w) = some w

/-! ## One statement per instruction -/

/-- R150. -/
def Obligations.ConditionalMoveWritesWhenConditionNonZero : Prop :=
  ∀ (a b c : RegIx) (s : State),
    (∀ w, decode w = .ok (.cmov a b c) ↔ AnyHigh 9 0x00000000 (a.toNat * 64 + b.toNat * 8 + c.toNat) w) ∧
    ∃ t, exec (.cmov a b c) s = .next t ∧ RegisterFrame a s t ∧
      (s.reg c ≠ 0#32 → t.reg a = s.reg b) ∧ (s.reg c = 0#32 → t.reg a = s.reg a)

/-- R151. -/
def Obligations.SegmentedLoadReadsOneWord : Prop :=
  ∀ (a b c : RegIx) (s : State),
    (∀ w, decode w = .ok (.sload a b c) ↔ AnyHigh 9 0x10000000 (a.toNat * 64 + b.toNat * 8 + c.toNat) w) ∧
    (ValidAddress s.mem (s.reg b) (s.reg c) →
      ∃ t, exec (.sload a b c) s = .next t ∧ RegisterFrame a s t ∧
        t.reg a = s.mem.word (s.reg b).toNat (s.reg c).toNat) ∧
    (¬ ValidAddress s.mem (s.reg b) (s.reg c) →
      exec (.sload a b c) s = .next { s with status := .fatal (.segmentAccessFault (s.reg b) (s.reg c)) })

/-- R152. The Word stored to is (x[a], x[b]); every other Word of every segment, every length, the slots and the
free-list are unchanged. -/
def Obligations.SegmentedStoreWritesOneWord : Prop :=
  ∀ (a b c : RegIx) (s : State), s.mem.wf →
    (∀ w, decode w = .ok (.sstore a b c) ↔ AnyHigh 9 0x20000000 (a.toNat * 64 + b.toNat * 8 + c.toNat) w) ∧
    (ValidAddress s.mem (s.reg a) (s.reg b) →
      ∃ t, exec (.sstore a b c) s = .next t ∧ MemoryFrame s t ∧
        t.mem.word (s.reg a).toNat (s.reg b).toNat = s.reg c ∧
        (∀ h o, (h, o) ≠ ((s.reg a).toNat, (s.reg b).toNat) → t.mem.word h o = s.mem.word h o) ∧
        (∀ h, t.mem.segLen h = s.mem.segLen h) ∧ t.mem.count = s.mem.count ∧ t.mem.free = s.mem.free) ∧
    (¬ ValidAddress s.mem (s.reg a) (s.reg b) →
      exec (.sstore a b c) s = .next { s with status := .fatal (.segmentAccessFault (s.reg a) (s.reg b)) })

/-- R160. -/
def Obligations.AddIsModuloTwoToThirtyTwo : Prop :=
  ∀ (a b c : RegIx) (s : State),
    (∀ w, decode w = .ok (.add a b c) ↔ AnyHigh 9 0x30000000 (a.toNat * 64 + b.toNat * 8 + c.toNat) w) ∧
    ∃ t, exec (.add a b c) s = .next t ∧ RegisterFrame a s t ∧
      (t.reg a).toNat = ((s.reg b).toNat + (s.reg c).toNat) % 2 ^ 32

/-- R161. -/
def Obligations.MultiplyIsModuloTwoToThirtyTwo : Prop :=
  ∀ (a b c : RegIx) (s : State),
    (∀ w, decode w = .ok (.mul a b c) ↔ AnyHigh 9 0x40000000 (a.toNat * 64 + b.toNat * 8 + c.toNat) w) ∧
    ∃ t, exec (.mul a b c) s = .next t ∧ RegisterFrame a s t ∧
      (t.reg a).toNat = ((s.reg b).toNat * (s.reg c).toNat) % 2 ^ 32

/-- R162. -/
def Obligations.DivideIsFloorOrFatalStop : Prop :=
  ∀ (a b c : RegIx) (s : State),
    (∀ w, decode w = .ok (.div a b c) ↔ AnyHigh 9 0x50000000 (a.toNat * 64 + b.toNat * 8 + c.toNat) w) ∧
    (s.reg c ≠ 0#32 →
      ∃ t, exec (.div a b c) s = .next t ∧ RegisterFrame a s t ∧
        (t.reg a).toNat = (s.reg b).toNat / (s.reg c).toNat) ∧
    (s.reg c = 0#32 → exec (.div a b c) s = .next { s with status := .fatal .divideByZero })

/-- R165: the quotient is the floor, and `dividend = quotient * divisor + remainder` with
`0 <= remainder < divisor`, exactly; by 0, a fatal stop. -/
def Obligations.DivideLeavesRemainderBelowDivisor : Prop :=
  ∀ (a b c : RegIx) (s : State),
    (s.reg c ≠ 0#32 →
      ∃ t r, exec (.div a b c) s = .next t ∧ (t.reg a).toNat = (s.reg b).toNat / (s.reg c).toNat ∧
        r < (s.reg c).toNat ∧ (s.reg b).toNat = (t.reg a).toNat * (s.reg c).toNat + r) ∧
    (s.reg c = 0#32 → ∃ t, exec (.div a b c) s = .next t ∧ t.status = .fatal .divideByZero)

/-- R163: "bit i of the result is 1 unless bit i of both sources is 1". -/
def Obligations.NandComplementsConjunctionBitByBit : Prop :=
  ∀ (a b c : RegIx) (s : State),
    (∀ w, decode w = .ok (.nand a b c) ↔ AnyHigh 9 0x60000000 (a.toNat * 64 + b.toNat * 8 + c.toNat) w) ∧
    ∃ t, exec (.nand a b c) s = .next t ∧ RegisterFrame a s t ∧
      ∀ i, i < 32 → (t.reg a).getLsbD i = !((s.reg b).getLsbD i && (s.reg c).getLsbD i)

/-- R170: which words are Halts; the effect; and, for the step that fetches one, the pc, the instruction count,
and that "After this step no step is taken". -/
def Obligations.HaltEntersHaltedAndKeepsEverythingElse : Prop :=
  (encode (.halt 0 0 0) = 0x70000000#32 ∧
    ∀ w : Word, (∃ a b c, decode w = .ok (.halt a b c)) ↔ 0x70000000 ≤ w.toNat ∧ w.toNat ≤ 0x7FFFFFFF) ∧
  (∀ (a b c : RegIx) (s : State),
    ∃ t, exec (.halt a b c) s = .next t ∧ t.status = .halted ∧ SameRegs s t ∧ t.pc = s.pc ∧ t.mem = s.mem ∧
      t.icount = s.icount ∧ t.inPos = s.inPos ∧ t.out = s.out ∧ t.input = s.input ∧ t.alloc = s.alloc) ∧
  (∀ (s : State) (w : Word), s.status = .running → s.mem.fetch s.pc = .ok w →
    0x70000000 ≤ w.toNat → w.toNat ≤ 0x7FFFFFFF →
    ∃ t, step s = .next t ∧ t.status = .halted ∧ t.pc = s.pc + 1 ∧ t.icount = s.icount + 1 ∧ SameRegs s t ∧
      t.mem = s.mem ∧ t.out = s.out ∧ t.inPos = s.inPos ∧ t.input = s.input ∧ t.alloc = s.alloc ∧
      ∀ u, step t ≠ .next u)

/-- R171, with `allocate` of 20_memory R64 and the contents of R65: where there is a free handle, the most
recently freed one is returned; where there is none, `count`; a refused allocation is a fatal stop (R72, which is
the spec's own decision D13). -/
def Obligations.MapAllocatesZeroedSegment : Prop :=
  ∀ (a b c : RegIx) (s : State), s.mem.wf →
    (∀ w, (∃ a, decode w = .ok (.map a b c)) ↔ AnyHigh 6 0x80000000 (b.toNat * 8 + c.toNat) w) ∧
    (∀ h rest, ¬ AllocationRefused s (s.reg c) → s.mem.free = h :: rest →
      ∃ t, exec (.map a b c) s = .next t ∧ SameRegsBut b s t ∧ t.pc = s.pc ∧ SameRunAndIo s t ∧
        (t.reg b).toNat = h ∧ t.mem.free = rest ∧ t.mem.count = s.mem.count ∧ t.mem.live h = true ∧
        t.mem.segLen h = (s.reg c).toNat ∧ (∀ o, t.mem.word h o = 0#32) ∧ SameSegmentsBut h s.mem t.mem) ∧
    (¬ AllocationRefused s (s.reg c) → s.mem.free = [] →
      ∃ t, exec (.map a b c) s = .next t ∧ SameRegsBut b s t ∧ t.pc = s.pc ∧ SameRunAndIo s t ∧
        (t.reg b).toNat = s.mem.count ∧ t.mem.free = [] ∧ t.mem.count = s.mem.count + 1 ∧
        t.mem.live s.mem.count = true ∧ t.mem.segLen s.mem.count = (s.reg c).toNat ∧
        (∀ o, t.mem.word s.mem.count o = 0#32) ∧ SameSegmentsBut s.mem.count s.mem t.mem) ∧
    (AllocationRefused s (s.reg c) →
      exec (.map a b c) s = .next { s with status := .fatal (.allocationFailure (s.reg c)) })

/-- R172, with `deallocate` of 20_memory R66. That handle 0 and a free handle are refused are the spec's own
decisions D10 and D11. -/
def Obligations.UnmapEmptiesSegmentAndPushesHandle : Prop :=
  ∀ (a b c : RegIx) (s : State),
    (∀ w, (∃ a b, decode w = .ok (.unmap a b c)) ↔ AnyHigh 3 0x90000000 c.toNat w) ∧
    (Unmappable s.mem (s.reg c) →
      ∃ t, exec (.unmap a b c) s = .next t ∧ MemoryFrame s t ∧
        t.mem.free = (s.reg c).toNat :: s.mem.free ∧ t.mem.count = s.mem.count ∧
        t.mem.segLen (s.reg c).toNat = 0 ∧ SameSegmentsBut (s.reg c).toNat s.mem t.mem) ∧
    (¬ Unmappable s.mem (s.reg c) →
      exec (.unmap a b c) s = .next { s with status := .fatal (.invalidUnmap (s.reg c)) })

/-- R180. -/
def Obligations.OutputAppendsLowByte : Prop :=
  ∀ (a b c : RegIx) (s : State),
    (∀ w, (∃ a b, decode w = .ok (.out a b c)) ↔ AnyHigh 3 0xA0000000 c.toNat w) ∧
    ∃ t byte, exec (.out a b c) s = .next t ∧ t.out = s.out ++ [byte] ∧
      byte.toNat = (s.reg c).toNat % 256 ∧ SameRegs s t ∧ t.pc = s.pc ∧ t.mem = s.mem ∧ t.status = s.status ∧
      t.icount = s.icount ∧ t.inPos = s.inPos ∧ t.input = s.input ∧ t.alloc = s.alloc

/-- R181. -/
def Obligations.InputWritesByteOrAllOnes : Prop :=
  ∀ (a b c : RegIx) (s : State),
    (∀ w, (∃ a b, decode w = .ok (.inp a b c)) ↔ AnyHigh 3 0xB0000000 c.toNat w) ∧
    ∃ t, exec (.inp a b c) s = .next t ∧ SameRegsBut c s t ∧ t.pc = s.pc ∧ t.mem = s.mem ∧
      t.status = s.status ∧ t.icount = s.icount ∧ t.out = s.out ∧ t.input = s.input ∧ t.alloc = s.alloc ∧
      (∀ byte, s.input.byte s.inPos = some byte → (t.reg c).toNat = byte.toNat ∧ t.inPos = s.inPos + 1) ∧
      (s.input.byte s.inPos = none → t.reg c = 0xFFFFFFFF#32 ∧ t.inPos = s.inPos)

/-- R190, with `load_program` of 20_memory R70. That a free handle is refused and that the new pc is not checked
are the spec's own decisions D12 and D23. -/
def Obligations.LoadProgramCopiesSegmentAndSetsPc : Prop :=
  ∀ (a b c : RegIx) (s : State),
    (∀ w, (∃ a, decode w = .ok (.loadp a b c)) ↔ AnyHigh 6 0xC0000000 (b.toNat * 8 + c.toNat) w) ∧
    (s.reg b = 0#32 →
      ∃ t, exec (.loadp a b c) s = .next t ∧ t.pc = s.reg c ∧ t.mem = s.mem ∧ SameRegs s t ∧ SameRunAndIo s t) ∧
    (s.reg b ≠ 0#32 → LiveHandle s.mem (s.reg b) →
      ∃ t, exec (.loadp a b c) s = .next t ∧ t.pc = s.reg c ∧ SameRegs s t ∧ SameRunAndIo s t ∧
        t.mem.segLen 0 = s.mem.segLen (s.reg b).toNat ∧ (∀ o, t.mem.word 0 o = s.mem.word (s.reg b).toNat o) ∧
        SameSegmentsBut 0 s.mem t.mem ∧ t.mem.count = s.mem.count ∧ t.mem.free = s.mem.free) ∧
    (s.reg b ≠ 0#32 → ¬ LiveHandle s.mem (s.reg b) →
      exec (.loadp a b c) s = .next { s with status := .fatal (.invalidProgramHandle (s.reg b)) })

/-- R195. -/
def Obligations.LoadImmediateZeroExtends : Prop :=
  ∀ (l : RegIx) (imm : Imm) (s : State),
    (∀ w, decode w = .ok (.loadi l imm) ↔ w.toNat = 0xD0000000 + l.toNat * 2 ^ 25 + imm.toNat) ∧
    ∃ t, exec (.loadi l imm) s = .next t ∧ RegisterFrame l s t ∧ (t.reg l).toNat = imm.toNat

/-! ## The step -/

/-- R130, R134, R140: a step at a state that runs and whose word at the pc decodes is `exec` of the instruction
on the state with the pc advanced modulo 2^32 and `icount` incremented, and nothing else changed. -/
def Obligations.StepRunsTheDecodedInstruction : Prop :=
  ∀ (s : State) (w : Word) (i : Instr), s.status = .running → s.mem.fetch s.pc = .ok w → decode w = .ok i →
    ∃ u, step s = exec i u ∧ u.pc.toNat = (s.pc.toNat + 1) % 2 ^ 32 ∧ u.icount = s.icount + 1 ∧ SameRegs s u ∧
      u.mem = s.mem ∧ u.status = s.status ∧ u.inPos = s.inPos ∧ u.out = s.out ∧ u.input = s.input ∧ u.alloc = s.alloc

/-- R132, R69: the fetch reads the Word at offset pc of the current segment 0; where the pc is at or beyond its
length the step ends with FetchOutOfRange and no other change. -/
def Obligations.FetchReadsSegmentZeroOrStops : Prop :=
  ∀ s : State,
    (s.pc.toNat < s.mem.segLen 0 → s.mem.fetch s.pc = .ok (s.mem.word 0 s.pc.toNat)) ∧
    (s.status = .running → s.mem.segLen 0 ≤ s.pc.toNat →
      step s = .next { s with status := .fatal (.fetchOutOfRange s.pc) })

/-- R133: an invalid word ends the step with IllegalOpcode and no other change. -/
def Obligations.InvalidWordStopsWithoutAdvancing : Prop :=
  ∀ (s : State) (w : Word), s.status = .running → s.mem.fetch s.pc = .ok w → 14 ≤ (opcodeOf w).toNat →
    step s = .next { s with status := .fatal (.illegalOpcode s.pc w) }

/-- R131: "A step is taken only when `status` = `Running`", and then one is taken; reset leads back to Running from
every state. -/
def Obligations.StepIsTakenExactlyWhenRunning : Prop :=
  (∀ s : State, (∃ t, step s = .next t) ↔ s.status = .running) ∧
  (∀ (s : State) (image : List Word) (input : InputStream) (alloc : AllocPolicy), image.length ≤ Config.maxSegLen →
    ∃ t, s.resetWith image input alloc = some t ∧ t.status = .running)

/-- The model's choice (log entry 4) for R131: from a terminal state the host's outcome names the terminal state. -/
def Obligations.TerminalStatesAnswerTheirNamedStop : Prop :=
  ∀ s : State, (s.status = .halted → step s = .fault .halted) ∧
    (∀ c, s.status = .fatal c → step s = .fault (.fatalStop c))

/-- R139: the three outcomes of a step, and which opcodes lead to which. -/
def Obligations.StepHasThreeOutcomesByOpcode : Prop :=
  (∀ s : State, s.status = .running →
    ∃ t, step s = .next t ∧
      (t.status = .running ∨
       (t.status = .halted ∧ ∃ a b c, s.fetchInstr = .ok (.halt a b c)) ∨
       ∃ c, t.status = .fatal c ∧
        (s.fetchInstr = .error c ∨ ∃ i, s.fetchInstr = .ok i ∧ i.opcode ∈ [1, 2, 5, 8, 9, 12]))) ∧
  (∀ (s : State) (i : Instr), s.status = .running → s.fetchInstr = .ok i → i.opcode ∈ [0, 3, 4, 6, 10, 11, 13] →
    ∃ t, step s = .next t ∧ t.status = .running)

/-- R201, R136 ("Can raise"): a fatal stop in dispatch has the one cause its opcode can raise. -/
def Obligations.DispatchRaisesOnlyTheOpcodesCause : Prop :=
  ∀ (i : Instr) (s t : State) (c : FatalCause), s.status = .running → exec i s = .next t → t.status = .fatal c →
    raisable i = some c.code

/-- R207: a fatal stop leaves no partial effect: causes 1 and 2 change nothing but the status; for causes 3 to 7
only the pc was advanced and the instruction counted. -/
def Obligations.FatalStopLeavesNoPartialEffect : Prop :=
  ∀ (s t : State) (c : FatalCause), step s = .next t → t.status = .fatal c →
    (c.code ≤ 2 ∧ t = { s with status := .fatal c }) ∨
    (3 ≤ c.code ∧ c.code ≤ 7 ∧ t = { s with pc := s.pc + 1, icount := s.icount + 1, status := .fatal c })

/-- R137: at most one register is written, the one the opcode's field names, and none by an instruction that
raises. -/
def Obligations.OnlyTheDestinationRegisterIsWritten : Prop :=
  ∀ (i : Instr) (s t : State), s.status = .running → exec i s = .next t →
    (∀ r, destination i ≠ some r → t.reg r = s.reg r) ∧ ((∃ c, t.status = .fatal c) → SameRegs s t)

/-- R30: after a fetch and decode that go through, every opcode except 12 continues at the next offset; a Load
program sets the pc to `x[c]`; a failing fetch or decode leaves the pc where it was. -/
def Obligations.PcIsNextOffsetUnlessLoadProgramSetsIt : Prop :=
  ∀ s t : State, step s = .next t →
    (∀ i, s.fetchInstr = .ok i → i.opcode ≠ 12 → t.pc = s.pc + 1) ∧
    (∀ a b c, s.fetchInstr = .ok (.loadp a b c) → t.status = .running → t.pc = s.reg c) ∧
    (∀ cause, s.fetchInstr = .error cause → t.pc = s.pc)

/-- R73: no instruction but opcodes 2, 8, 9 and 12 changes the segment memory. -/
def Obligations.OnlyFourOpcodesChangeMemory : Prop :=
  ∀ (i : Instr) (s t : State), exec i s = .next t → i.opcode ∉ [2, 8, 9, 12] → t.mem = s.mem

/-- R87: "The length of segment 0 can change only by (b)", Load program. -/
def Obligations.OnlyLoadProgramResizesSegmentZero : Prop :=
  ∀ (i : Instr) (s t : State), s.mem.wf → exec i s = .next t → i.opcode ≠ 12 → t.mem.segLen 0 = s.mem.segLen 0

/-- R38: `count` starts at 1 and only grows, by one, each time an allocation finds the free-list empty, and never
past `MAX_HANDLES`. -/
def Obligations.CountGrowsOnlyByFreshAllocation : Prop :=
  (∀ (image : List Word) (input : InputStream) (alloc : AllocPolicy), (State.boot image input alloc).mem.count = 1) ∧
  (∀ s t : State, s.mem.wf → step s = .next t →
    s.mem.count ≤ t.mem.count ∧ t.mem.count ≤ Config.maxHandles ∧
    (t.mem.count ≠ s.mem.count →
      t.mem.count = s.mem.count + 1 ∧ s.mem.free = [] ∧ ∃ a b c, s.fetchInstr = .ok (.map a b c))) ∧
  (∀ (s t : State) (a b c : RegIx), s.fetchInstr = .ok (.map a b c) → s.mem.free = [] → step s = .next t →
    t.status = .running → t.mem.count = s.mem.count + 1)

/-- R140, R36: the instruction count grows by one in a step that gets past decode, and not otherwise. -/
def Obligations.InstructionCountCountsDecodedSteps : Prop :=
  ∀ s t : State, step s = .next t →
    ((∃ i, s.fetchInstr = .ok i) → t.icount = s.icount + 1) ∧ ((∃ c, s.fetchInstr = .error c) → t.icount = s.icount)

/-- R32: the increment is modulo 2^32, and its wrap can not be reached. -/
def Obligations.PcIncrementNeverWraps : Prop :=
  ∀ s : State, s.advance.pc.toNat = (s.pc.toNat + 1) % 2 ^ 32 ∧
    (s.mem.wf → ∀ w, s.mem.fetch s.pc = .ok w → s.pc.toNat ≠ 2 ^ 32 - 1 ∧ s.advance.pc.toNat = s.pc.toNat + 1)

/-! ## The segment memory across instructions -/

/-- 20_memory R62: `new(initial_words)`: exactly one segment, handle 0, that holds the words, and no free
handle. -/
def Obligations.NewMemoryHoldsTheWordsInSegmentZero : Prop :=
  ∀ ws : List Word,
    (Memory.new ws).count = 1 ∧ (Memory.new ws).free = [] ∧ (Memory.new ws).live 0 = true ∧
    (Memory.new ws).segLen 0 = ws.length ∧ ∀ k (hk : k < ws.length), (Memory.new ws).word 0 k = ws[k]'hk

/-- R65: "newly allocated words are zero"; and "Allocate → deallocate → allocate returns the same handle the second
time", of the new size and zeroed, whatever it held before. -/
def Obligations.ReallocationReturnsSameHandleZeroed : Prop :=
  ∀ (m : Memory) (size : Word), m.wf →
    (∀ (ok : Bool) (h : Nat) (m' : Memory), m.allocate ok size = .ok (h, m') →
      m'.segLen h = size.toNat ∧ ∀ o, m'.word h o = 0#32) ∧
    (∀ (h : Word) (m1 : Memory), m.deallocate h = .ok m1 →
      ∃ m2, m1.allocate true size = .ok (h.toNat, m2) ∧ m2.segLen h.toNat = size.toNat ∧
        (∀ o, m2.word h.toNat o = 0#32) ∧ m2.free = m.free)

/-- R41: the free-list is a stack: an allocation pops the most recently freed handle, so two handles come back in
the reverse order of their deallocation; with no free handle the answer is the segment count before the
call. -/
def Obligations.FreedHandlesReturnLastFreedFirst : Prop :=
  ∀ (m : Memory) (size size' : Word),
    (∀ h rest, m.free = h :: rest → ∃ m', m.allocate true size = .ok (h, m') ∧ m'.free = rest) ∧
    (m.free = [] → m.count < Config.maxHandles →
      ∃ m', m.allocate true size = .ok (m.count, m') ∧ m'.count = m.count + 1 ∧ m'.free = []) ∧
    (∀ (h1 h2 : Word) (m1 m2 : Memory), m.deallocate h1 = .ok m1 → m1.deallocate h2 = .ok m2 →
      ∃ m3 m4, m2.allocate true size = .ok (h2.toNat, m3) ∧ m3.allocate true size' = .ok (h1.toNat, m4))

/-- R63: a handle is live, free or was never allocated; through one that is not live every load, store, unmap and
(but for handle register 0) load program is a fatal stop that changes nothing else. That Unmap of a free handle is
a fatal stop is the spec's own decision D11, and Load program of one its decision D12 (log entry 10). -/
def Obligations.DeadHandleIsNeverReadOrWritten : Prop :=
  ∀ (a b c : RegIx) (s : State),
    (∀ h : Word, LiveHandle s.mem h ∨ h.toNat ∈ s.mem.free ∨ s.mem.count ≤ h.toNat) ∧
    (¬ LiveHandle s.mem (s.reg b) →
      exec (.sload a b c) s = .next { s with status := .fatal (.segmentAccessFault (s.reg b) (s.reg c)) }) ∧
    (¬ LiveHandle s.mem (s.reg a) →
      exec (.sstore a b c) s = .next { s with status := .fatal (.segmentAccessFault (s.reg a) (s.reg b)) }) ∧
    (¬ LiveHandle s.mem (s.reg c) →
      exec (.unmap a b c) s = .next { s with status := .fatal (.invalidUnmap (s.reg c)) }) ∧
    (¬ LiveHandle s.mem (s.reg b) → s.reg b ≠ 0#32 →
      exec (.loadp a b c) s = .next { s with status := .fatal (.invalidProgramHandle (s.reg b)) })

/-- R86: a Segmented store to handle 0 is seen by the next fetch of that offset, and no other offset's fetch is
changed by it; after a Load program the next fetch reads the new contents at the new pc. -/
def Obligations.NextFetchSeesStoresAndLoadedPrograms : Prop :=
  ∀ (a b c : RegIx) (s : State), s.mem.wf →
    (s.reg a = 0#32 → (s.reg b).toNat < s.mem.segLen 0 →
      ∃ t, exec (.sstore a b c) s = .next t ∧ t.mem.fetch (s.reg b) = .ok (s.reg c) ∧
        ∀ p, p ≠ s.reg b → t.mem.fetch p = s.mem.fetch p) ∧
    (s.reg b ≠ 0#32 → LiveHandle s.mem (s.reg b) →
      ∃ t, exec (.loadp a b c) s = .next t ∧
        ((s.reg c).toNat < s.mem.segLen (s.reg b).toNat →
          t.mem.fetch t.pc = .ok (s.mem.word (s.reg b).toNat (s.reg c).toNat)) ∧
        (s.mem.segLen (s.reg b).toNat ≤ (s.reg c).toNat →
          t.mem.fetch t.pc = .error (.fetchOutOfRange (s.reg c))))

/-- R70: Load program copies: segment 0 takes the length and the Words of the source; a later store through any
handle but 0 does not change segment 0, and a later store to segment 0 does not change the source. That a free
source is refused is the spec's own decision D12. -/
def Obligations.LoadedProgramIsAnIndependentCopy : Prop :=
  ∀ (m m1 : Memory) (h : Word), m.wf → h ≠ 0#32 → m.loadProgram h = .ok m1 →
    (m1.segLen 0 = m.segLen h.toNat ∧ ∀ p, m1.word 0 p = m.word h.toNat p) ∧
    (∀ (h' o v : Word) (m2 : Memory), h' ≠ 0#32 → m1.store h' o v = .ok m2 →
      m2.segLen 0 = m.segLen h.toNat ∧ ∀ p, m2.word 0 p = m.word h.toNat p) ∧
    (∀ (o v : Word) (m2 : Memory), m1.store 0#32 o v = .ok m2 →
      m2.segLen h.toNat = m.segLen h.toNat ∧ ∀ p, m2.word h.toNat p = m.word h.toNat p)

/-- R83: a load returns the Word most recently stored at its address. -/
def Obligations.StoreThenLoadReturnsStoredWord : Prop :=
  ∀ (m m' : Memory) (h o v : Word), m.wf → m.store h o v = .ok m' →
    m'.load h o = .ok v ∧ ∀ h' o', (h', o') ≠ (h, o) → m'.load h' o' = m.load h' o'

/-! ## The byte channels -/

/-- R183: `InByte()`: below the length of the stream the byte at `in_pos` is taken and `in_pos` advances; at its
end the answer is EOS and `in_pos` stays; an endless stream always delivers. -/
def Obligations.InByteTakesNextByteOrEndOfStream : Prop :=
  ∀ s : State,
    (∀ h : s.inPos < s.input.bytes.length,
      s.inByte = (some (s.input.bytes[s.inPos]'h), { s with inPos := s.inPos + 1 })) ∧
    (s.input.endless = false → s.input.bytes.length ≤ s.inPos → s.inByte = (none, s)) ∧
    (s.input.endless = true → ∃ byte, s.inByte = (some byte, { s with inPos := s.inPos + 1 }))

/-- R183: "End of stream is permanent": once the stream has ended it has ended after every step, whatever the
step runs. -/
def Obligations.EndOfStreamIsPermanent : Prop :=
  ∀ s t : State, s.input.byte s.inPos = none → step s = .next t → t.input.byte t.inPos = none ∧ t.inPos = s.inPos

/-- R182: nothing is ever removed from the output or reordered, and only an Output adds to it, one byte. -/
def Obligations.OutputOnlyGrowsAndOnlyByOutput : Prop :=
  ∀ s t : State, step s = .next t →
    t.out = s.out ∨ ∃ a b c byte, s.fetchInstr = .ok (.out a b c) ∧ t.out = s.out ++ [byte]

/-! ## Reset and boot -/

/-- R43, R230, R231: the state after reset with a boot image, from any state. -/
def Obligations.ResetGivesEveryFieldItsValue : Prop :=
  ∀ (s : State) (image : List Word) (input : InputStream) (alloc : AllocPolicy),
    image.length ≤ Config.maxSegLen →
      ∃ t, s.resetWith image input alloc = some t ∧ (∀ r, t.reg r = 0#32) ∧ t.pc = 0#32 ∧ t.mem.count = 1 ∧
        t.mem.segLen 0 = image.length ∧ (∀ k (h : k < image.length), t.mem.word 0 k = image[k]'h) ∧
        t.mem.free = [] ∧ t.status = .running ∧ t.icount = 0 ∧ t.inPos = 0 ∧ t.out = []

/-- R237: an empty boot image gives a machine whose first step is FetchOutOfRange with pc 0. -/
def Obligations.EmptyImageStopsAtFirstStep : Prop :=
  ∀ (input : InputStream) (alloc : AllocPolicy),
    ∃ t, step (State.boot [] input alloc) = .next t ∧ t.status = .fatal (.fetchOutOfRange 0#32) ∧ t.pc = 0#32 ∧
      t.icount = 0

/-- R234: the Word at offset k of an image is its bytes 4k to 4k + 3, the first the most significant. -/
def Obligations.BootImageIsBigEndian : Prop :=
  ∀ (bytes : List Byte) (ws : List Word), bootImage bytes = some ws →
    4 * ws.length = bytes.length ∧
    ∀ k (hk : k < ws.length) (h3 : 4 * k + 3 < bytes.length),
      (ws[k]'hk).toNat = (bytes[4 * k]'(by omega)).toNat * 2 ^ 24 + (bytes[4 * k + 1]'(by omega)).toNat * 2 ^ 16 +
        (bytes[4 * k + 2]'(by omega)).toNat * 2 ^ 8 + (bytes[4 * k + 3]'h3).toNat

/-- R235: a file is a boot image exactly when its length is a multiple of 4 and below 4 * 2^32 bytes; one of 0
bytes is an image of 0 Words. -/
def Obligations.PartialOrOversizeImageIsRefused : Prop :=
  (∀ bytes : List Byte, (∃ ws, bootImage bytes = some ws) ↔ (bytes.length % 4 = 0 ∧ bytes.length < 4 * 2 ^ 32)) ∧
  bootImage [] = some []

/-! ## Invariants -/

/-- R44: the invariant holds at reset, and after reset with every boot image. -/
def Obligations.InvariantHoldsAfterReset : Prop :=
  State.reset.Inv ∧
  ∀ (image : List Word) (input : InputStream) (alloc : AllocPolicy), image.length ≤ Config.maxSegLen →
    (State.boot image input alloc).Inv

/-- R44: every step keeps the invariant, from every state that meets it. -/
def Obligations.EveryStepKeepsTheInvariant : Prop :=
  ∀ s t : State, s.Inv → step s = .next t → t.Inv

/-- R44 (a) to (d), for every boot image and every number of steps: at least one slot; handle 0 live; every free
handle in range, not 0, listed once and its slot empty; no segment longer than `MAX_SEG_LEN`. (e) is in the types:
registers and pc are 32-bit words. -/
def Obligations.ReachableStatesMeetTheSpecsInvariants : Prop :=
  ∀ (image : List Word) (input : InputStream) (alloc : AllocPolicy) (n : Nat) (t : State),
    image.length ≤ Config.maxSegLen → Host.Core.run Sys2Proof.core n (State.boot image input alloc) = .next t →
      1 ≤ t.mem.count ∧ t.mem.live 0 = true ∧
      (∀ h ∈ t.mem.free, h < t.mem.count ∧ h ≠ 0 ∧ t.mem.segLen h = 0) ∧ t.mem.free.Nodup ∧
      (∀ h, t.mem.segLen h ≤ Config.maxSegLen) ∧
      (∀ r, (t.reg r).toNat < 2 ^ 32) ∧ t.pc.toNat < 2 ^ 32

/-- R25, R28: "The value written in step n is what every read in step n+1 returns". Whatever instruction wrote `v`
to register `d`, register 0 included, whatever instruction `j` the next step fetches runs on registers in which `d`
holds `v` and every other register what it held before; an Add that reads `d` as either operand shows it. -/
def Obligations.WrittenRegisterIsReadByNextInstruction : Prop :=
  ∀ (i : Instr) (d : RegIx) (v : Word) (s : State),
    s.status = .running → destination i = some d → valueWritten i s = some v →
    ∃ t, exec i s = .next t ∧ t.reg d = v ∧
      ∀ j, t.fetchInstr = .ok j →
        ∃ r, step t = exec j r ∧ r.reg d = v ∧ (∀ x, x ≠ d → r.reg x = s.reg x) ∧
          ∀ a e, j = .add a d e ∨ j = .add a e d → ∃ u, step t = .next u ∧ u.reg a = v + r.reg e
end

