-- ==== Sys2Proof/Laws/Decode.lean ====
section
/-! SUPPORT. The fields of encoded words, and the decoder's two answers. -/

namespace Sys2Proof

theorem opcodeOf_toNat (w : Word) : (opcodeOf w).toNat = w.toNat / 2 ^ 28 := by
  have := w.isLt
  simp only [opcodeOf, BitVec.extractLsb'_toNat, Nat.shiftRight_eq_div_pow]
  omega

theorem fieldA_toNat (w : Word) : (fieldA w).toNat = w.toNat / 2 ^ 6 % 2 ^ 3 := by
  simp only [fieldA, BitVec.extractLsb'_toNat, Nat.shiftRight_eq_div_pow]

theorem fieldB_toNat (w : Word) : (fieldB w).toNat = w.toNat / 2 ^ 3 % 2 ^ 3 := by
  simp only [fieldB, BitVec.extractLsb'_toNat, Nat.shiftRight_eq_div_pow]

theorem fieldC_toNat (w : Word) : (fieldC w).toNat = w.toNat % 2 ^ 3 := by
  simp [fieldC, BitVec.extractLsb'_toNat]

theorem fieldL_toNat (w : Word) : (fieldL w).toNat = w.toNat / 2 ^ 25 % 2 ^ 3 := by
  simp only [fieldL, BitVec.extractLsb'_toNat, Nat.shiftRight_eq_div_pow]

theorem fieldImm_toNat (w : Word) : (fieldImm w).toNat = w.toNat % 2 ^ 25 := by
  simp [fieldImm, BitVec.extractLsb'_toNat]

theorem threeWord_toNat {op : Nat} (h : op < 16) (a b c : RegIx) :
    (threeWord op a b c).toNat = op * 2 ^ 28 + a.toNat * 2 ^ 6 + b.toNat * 2 ^ 3 + c.toNat := by
  have := a.isLt
  have := b.isLt
  have := c.isLt
  simp only [threeWord, BitVec.toNat_ofNat]
  omega

theorem immWord_toNat (l : RegIx) (imm : Imm) : (immWord l imm).toNat = 13 * 2 ^ 28 + l.toNat * 2 ^ 25 + imm.toNat := by
  have := l.isLt
  have := imm.isLt
  simp only [immWord, BitVec.toNat_ofNat]
  omega

/-- Reading the fields of a three-register word gives what was put in (30_encoding R103, R114). -/
theorem threeWord_fields {op : Nat} (h : op < 16) (a b c : RegIx) :
    (opcodeOf (threeWord op a b c)).toNat = op ∧ fieldA (threeWord op a b c) = a ∧
      fieldB (threeWord op a b c) = b ∧ fieldC (threeWord op a b c) = c := by
  have := a.isLt
  have := b.isLt
  have := c.isLt
  refine ⟨?_, BitVec.eq_of_toNat_eq ?_, BitVec.eq_of_toNat_eq ?_, BitVec.eq_of_toNat_eq ?_⟩
  · rw [opcodeOf_toNat, threeWord_toNat h]; omega
  · rw [fieldA_toNat, threeWord_toNat h]; omega
  · rw [fieldB_toNat, threeWord_toNat h]; omega
  · rw [fieldC_toNat, threeWord_toNat h]; omega

/-- Reading the fields of an immediate word gives what was put in (30_encoding R104, R114). -/
theorem immWord_fields (l : RegIx) (imm : Imm) :
    (opcodeOf (immWord l imm)).toNat = 13 ∧ fieldL (immWord l imm) = l ∧ fieldImm (immWord l imm) = imm := by
  have := l.isLt
  have := imm.isLt
  refine ⟨?_, BitVec.eq_of_toNat_eq ?_, BitVec.eq_of_toNat_eq ?_⟩
  · rw [opcodeOf_toNat, immWord_toNat]; omega
  · rw [fieldL_toNat, immWord_toNat]; omega
  · rw [fieldImm_toNat, immWord_toNat]; omega

/-- A field of a word is a given register exactly when its bits are that number (30_encoding R103). -/
theorem fields_eq_iff (w : Word) (a b c : RegIx) :
    (fieldA w = a ↔ w.toNat / 2 ^ 6 % 2 ^ 3 = a.toNat) ∧ (fieldB w = b ↔ w.toNat / 2 ^ 3 % 2 ^ 3 = b.toNat) ∧
      (fieldC w = c ↔ w.toNat % 2 ^ 3 = c.toNat) := by
  rw [← fieldA_toNat, ← fieldB_toNat, ← fieldC_toNat]
  exact ⟨BitVec.toNat_inj.symm, BitVec.toNat_inj.symm, BitVec.toNat_inj.symm⟩

/-- An instruction's opcode is 0 to 13 (30_encoding R109). -/
theorem Instr.opcode_le (i : Instr) : i.opcode ≤ 13 := by
  cases i <;> simp [Instr.opcode]

/-- Every word of opcode 0 to 13 decodes, to an instruction of that opcode. -/
theorem decode_opcode {w : Word} {i : Instr} (h : decode w = .ok i) : (opcodeOf w).toNat = i.opcode := by
  unfold decode at h
  split at h <;> first | (injection h with h; subst h; simpa [Instr.opcode]) | exact nomatch h

/-- The mask of the bits a three-register word is read by (30_encoding R115): the opcode and the low nine. -/
theorem formatMask_toNat (w : Word) :
    (w &&& 0xF00001FF#32).toNat = w.toNat / 2 ^ 28 * 2 ^ 28 + w.toNat % 2 ^ 9 := by
  have hw := w.isLt
  have parts : w &&& 0xF00001FF#32 = w.extractLsb' 28 4 ++ 0#19 ++ w.extractLsb' 0 9 := by
    apply BitVec.eq_of_getLsbD_eq
    intro i hi
    rw [BitVec.getLsbD_and, BitVec.getLsbD_append, BitVec.getLsbD_append, BitVec.getLsbD_extractLsb',
      BitVec.getLsbD_extractLsb']
    interval_cases i <;> simp
  have low : ∀ x y : Nat, y < 2 ^ 9 → (x * 2 ^ 9 ||| y) = x * 2 ^ 9 + y := fun x y hy => by
    rw [← Nat.shiftLeft_eq, ← Nat.shiftLeft_add_eq_or_of_lt hy]
  have high : (w.toNat / 2 ^ 28 % 2 ^ 4 * 2 ^ 19 ||| 0 % 2 ^ 19) = w.toNat / 2 ^ 28 * 2 ^ 19 := by
    simp
    omega
  rw [parts]
  simp only [BitVec.toNat_append, BitVec.extractLsb'_toNat, Nat.shiftRight_eq_div_pow, BitVec.toNat_ofNat,
    Nat.shiftLeft_eq]
  rw [high, low _ _ (by omega)]
  omega

end Sys2Proof
end

