-- ==== Sys2Proof/Laws/Memory.lean ====
section
/-! SUPPORT. What the operations of the segment memory do (20_memory R62 to R70): the Words of one segment,
the canonical form and who keeps it, and one lemma per operation that says when it goes through and
with what. -/

namespace Sys2Proof.Machine

/-! ## The cells of one segment -/

theorem cellsWf_mono {len lo lo' : Nat} {l : List (Nat × Word)} (h : cellsWf len lo l = true) (hl : lo' ≤ lo) :
    cellsWf len lo' l = true := by
  cases l with
  | nil => rfl
  | cons p rest =>
    obtain ⟨k, v⟩ := p
    simp only [cellsWf, Bool.and_eq_true, decide_eq_true_eq] at h ⊢
    exact ⟨⟨⟨by omega, h.1.1.2⟩, h.1.2⟩, h.2⟩

theorem cellsWf_len_mono {len len' : Nat} (hl : len ≤ len') {lo : Nat} {l : List (Nat × Word)}
    (h : cellsWf len lo l = true) : cellsWf len' lo l = true := by
  induction l generalizing lo with
  | nil => rfl
  | cons p rest ih =>
    obtain ⟨k, v⟩ := p
    simp only [cellsWf, Bool.and_eq_true, decide_eq_true_eq] at h ⊢
    exact ⟨⟨⟨h.1.1.1, by omega⟩, h.1.2⟩, ih h.2⟩

/-- Nothing is listed below the first offset or at the length and above. -/
theorem cellsGet_outside {len lo o : Nat} {l : List (Nat × Word)} (h : cellsWf len lo l = true)
    (ho : o < lo ∨ len ≤ o) : cellsGet l o = 0#32 := by
  induction l generalizing lo with
  | nil => rfl
  | cons p rest ih =>
    obtain ⟨k, v⟩ := p
    simp only [cellsWf, Bool.and_eq_true, decide_eq_true_eq] at h
    have hk : k ≠ o := by omega
    simp only [cellsGet, if_neg hk]
    exact ih h.2 (by omega)

/-- A written Word is read back and every other offset reads as before. -/
theorem cellsGet_cellsSet {len lo : Nat} {l : List (Nat × Word)} (h : cellsWf len lo l = true) (o : Nat) (v : Word)
    (o' : Nat) : cellsGet (cellsSet l o v) o' = if o' = o then v else cellsGet l o' := by
  induction l generalizing lo with
  | nil =>
    by_cases hv : v = 0#32
    · by_cases ho : o' = o <;> simp [cellsSet, cellsGet, hv, ho]
    · by_cases ho : o' = o
      · simp [cellsSet, cellsGet, hv, ho]
      · have : ¬ o = o' := fun e => ho e.symm
        simp [cellsSet, cellsGet, hv, ho, this]
  | cons p rest ih =>
    obtain ⟨k, w⟩ := p
    have hw := h
    simp only [cellsWf, Bool.and_eq_true, decide_eq_true_eq] at h
    have hrest : ∀ x, x ≤ k → cellsGet rest x = 0#32 := fun x hx => cellsGet_outside h.2 (.inl (by omega))
    rcases lt_trichotomy o k with hlt | heq | hgt
    · have hall : cellsGet ((k, w) :: rest) o = 0#32 :=
        cellsGet_outside (lo := k) (l := (k, w) :: rest) (cellsWf_mono (lo' := k) (by
          simp only [cellsWf, Bool.and_eq_true, decide_eq_true_eq]; exact ⟨⟨⟨le_refl k, h.1.1.2⟩, h.1.2⟩, h.2⟩) (le_refl k)) (.inl hlt)
      by_cases hv : v = 0#32
      · by_cases ho : o' = o
        · subst ho; simp [cellsSet, hlt, hv, hall]
        · simp [cellsSet, hlt, hv, ho]
      · by_cases ho : o' = o
        · subst ho; simp [cellsSet, hlt, hv, cellsGet]
        · have : ¬ o = o' := fun e => ho e.symm
          simp [cellsSet, hlt, hv, cellsGet, ho, this]
    · subst heq
      by_cases hv : v = 0#32
      · by_cases ho : o' = o
        · subst ho; simp [cellsSet, hv, hrest]
        · have : ¬ o = o' := fun e => ho e.symm
          simp [cellsSet, hv, cellsGet, ho, this]
      · by_cases ho : o' = o
        · subst ho; simp [cellsSet, hv, cellsGet]
        · have : ¬ o = o' := fun e => ho e.symm
          simp [cellsSet, hv, cellsGet, ho, this]
    · have h1 : ¬ o < k := by omega
      have h2 : ¬ o = k := by omega
      simp only [cellsSet, if_neg h1, if_neg h2, cellsGet, ih h.2]
      by_cases hk : k = o'
      · have : ¬ o' = o := by omega
        simp [hk, this]
      · simp [hk]

theorem cellsWf_cellsSet {len lo : Nat} {l : List (Nat × Word)} (h : cellsWf len lo l = true) {o : Nat}
    (hlo : lo ≤ o) (hlen : o < len) (v : Word) : cellsWf len lo (cellsSet l o v) = true := by
  induction l generalizing lo with
  | nil =>
    by_cases hv : v = 0#32
    · simp [cellsSet, hv, cellsWf]
    · simp [cellsSet, hv, cellsWf, hlo, hlen]
  | cons p rest ih =>
    obtain ⟨k, w⟩ := p
    have hw := h
    simp only [cellsWf, Bool.and_eq_true, decide_eq_true_eq] at h
    by_cases h1 : o < k
    · by_cases hv : v = 0#32
      · simp only [cellsSet, if_pos h1, if_pos hv]; exact hw
      · simp only [cellsSet, if_pos h1, if_neg hv, cellsWf, Bool.and_eq_true, decide_eq_true_eq]
        exact ⟨⟨⟨hlo, hlen⟩, hv⟩, ⟨⟨by omega, h.1.1.2⟩, h.1.2⟩, h.2⟩
    · by_cases h2 : o = k
      · by_cases hv : v = 0#32
        · simp only [cellsSet, if_neg h1, if_pos h2, if_pos hv]
          exact cellsWf_mono h.2 (by omega)
        · simp only [cellsSet, if_neg h1, if_pos h2, if_neg hv, cellsWf, Bool.and_eq_true, decide_eq_true_eq]
          exact ⟨⟨⟨hlo, hlen⟩, hv⟩, h2 ▸ h.2⟩
      · simp only [cellsSet, if_neg h1, if_neg h2, cellsWf, Bool.and_eq_true, decide_eq_true_eq]
        exact ⟨h.1, ih h.2 (by omega)⟩

/-- Two canonical lists of cells that read the same are the same list. -/
theorem cells_ext {len lo : Nat} {l l' : List (Nat × Word)} (h : cellsWf len lo l = true)
    (h' : cellsWf len lo l' = true) (he : ∀ o, cellsGet l o = cellsGet l' o) : l = l' := by
  induction l generalizing lo l' with
  | nil =>
    cases l' with
    | nil => rfl
    | cons p rest =>
      obtain ⟨k, v⟩ := p
      simp only [cellsWf, Bool.and_eq_true, decide_eq_true_eq] at h'
      have := he k
      simp only [cellsGet, if_pos] at this
      exact absurd this.symm h'.1.2
  | cons p rest ih =>
    obtain ⟨k, v⟩ := p
    cases l' with
    | nil =>
      simp only [cellsWf, Bool.and_eq_true, decide_eq_true_eq] at h
      have := he k
      simp only [cellsGet, if_pos] at this
      exact absurd this h.1.2
    | cons p' rest' =>
      obtain ⟨k', v'⟩ := p'
      simp only [cellsWf, Bool.and_eq_true, decide_eq_true_eq] at h h'
      have hk := he k
      have hk' := he k'
      simp only [cellsGet, if_pos] at hk hk'
      have hkk : k = k' := by
        by_contra hne
        rcases lt_or_gt_of_ne hne with hlt | hgt
        · rw [if_neg (by omega), cellsGet_outside h'.2 (.inl (by omega))] at hk
          exact h.1.2 hk
        · rw [if_neg (by omega), cellsGet_outside h.2 (.inl (by omega))] at hk'
          exact h'.1.2 hk'.symm
      subst hkk
      rw [if_pos rfl] at hk
      subst hk
      congr 1
      refine ih h.2 h'.2 fun o => ?_
      by_cases ho : k = o
      · subst ho
        rw [cellsGet_outside h.2 (.inl (by omega)), cellsGet_outside h'.2 (.inl (by omega))]
      · have := he o
        simpa [cellsGet, ho] using this

theorem cellsWf_cellsOf (ws : List Word) (o len : Nat) (hl : o + ws.length ≤ len) :
    cellsWf len o (cellsOf o ws) = true := by
  induction ws generalizing o with
  | nil => rfl
  | cons w ws ih =>
    simp only [List.length_cons] at hl
    have h := ih (o + 1) (by omega)
    by_cases hw : w = 0#32
    · simp only [cellsOf, if_pos hw]
      exact cellsWf_mono h (by omega)
    · simp only [cellsOf, if_neg hw, cellsWf, Bool.and_eq_true, decide_eq_true_eq]
      exact ⟨⟨⟨le_refl o, by omega⟩, hw⟩, h⟩

theorem cellsGet_cellsOf (ws : List Word) (o k : Nat) : cellsGet (cellsOf o ws) (o + k) = (ws[k]?).getD 0#32 := by
  induction ws generalizing o k with
  | nil => rfl
  | cons w ws ih =>
    cases k with
    | zero =>
      by_cases hw : w = 0#32
      · simp only [cellsOf, if_pos hw]
        rw [cellsGet_outside (cellsWf_cellsOf ws (o + 1) (o + 1 + ws.length) (le_refl _)) (.inl (by omega))]
        simp [hw]
      · simp [cellsOf, hw, cellsGet]
    | succ k =>
      have := ih (o + 1) k
      by_cases hw : w = 0#32
      · simp only [cellsOf, if_pos hw]
        rw [show o + (k + 1) = o + 1 + k by omega, this]
        simp
      · simp only [cellsOf, if_neg hw, cellsGet]
        rw [if_neg (by omega), show o + (k + 1) = o + 1 + k by omega, this]
        simp

/-! ## One segment -/

@[simp] theorem Segment.zeros_len (n : Nat) : (Segment.zeros n).len = n := rfl
@[simp] theorem Segment.zeros_get (n o : Nat) : (Segment.zeros n).get o = 0#32 := rfl
@[simp] theorem Segment.set_len (g : Segment) (o : Nat) (v : Word) : (g.set o v).len = g.len := rfl
@[simp] theorem Segment.ofWords_len (ws : List Word) : (Segment.ofWords ws).len = ws.length := rfl

theorem Segment.wf_iff (g : Segment) :
    g.wf = true ↔ g.len ≤ Config.maxSegLen ∧ cellsWf g.len 0 g.cells = true := by
  simp [Segment.wf]

theorem Segment.zeros_wf {n : Nat} (h : n ≤ Config.maxSegLen) : (Segment.zeros n).wf = true :=
  (Segment.wf_iff _).2 ⟨h, rfl⟩

theorem Segment.ofWords_wf {ws : List Word} (h : ws.length ≤ Config.maxSegLen) : (Segment.ofWords ws).wf = true :=
  (Segment.wf_iff _).2 ⟨h, cellsWf_cellsOf ws 0 ws.length (by omega)⟩

@[simp] theorem Segment.ofWords_get (ws : List Word) (k : Nat) : (Segment.ofWords ws).get k = (ws[k]?).getD 0#32 := by
  have := cellsGet_cellsOf ws 0 k
  simpa [Segment.get, Segment.ofWords] using this

theorem Segment.set_wf {g : Segment} (h : g.wf = true) {o : Nat} (ho : o < g.len) (v : Word) : (g.set o v).wf = true := by
  rw [Segment.wf_iff] at h ⊢
  exact ⟨h.1, cellsWf_cellsSet h.2 (Nat.zero_le o) ho v⟩

theorem Segment.set_get {g : Segment} (h : g.wf = true) (o : Nat) (v : Word) (o' : Nat) :
    (g.set o v).get o' = if o' = o then v else g.get o' :=
  cellsGet_cellsSet ((Segment.wf_iff g).1 h).2 o v o'

/-- Equal contents are equal data (log entry 3). -/
theorem Segment.ext_of_wf {g g' : Segment} (h : g.wf = true) (h' : g'.wf = true) (hl : g.len = g'.len)
    (he : ∀ o, g.get o = g'.get o) : g = g' := by
  obtain ⟨len, cells⟩ := g
  obtain ⟨len', cells'⟩ := g'
  simp only at hl
  subst hl
  rw [Segment.wf_iff] at h h'
  congr 1
  exact cells_ext h.2 h'.2 he

/-! ## The slots -/

theorem Memory.seg_of_lt {m : Memory} {h : Nat} (hh : h < m.count) : m.seg h = m.segs[h]'hh := by
  simp only [Memory.count] at hh
  simp [Memory.seg, hh]

theorem Memory.seg_mem {m : Memory} {h : Nat} (hh : h < m.count) : m.seg h ∈ m.segs := by
  rw [Memory.seg_of_lt hh]
  exact List.getElem_mem _

theorem Memory.seg_set {segs : List Segment} {free : List Nat} {h : Nat} (hh : h < segs.length) (g : Segment) (h' : Nat) :
    (Memory.mk (segs.set h g) free).seg h' = if h' = h then g else (Memory.mk segs free).seg h' := by
  simp only [Memory.seg, List.getElem?_set]
  by_cases e : h = h'
  · subst e; simp [hh]
  · have : ¬ h' = h := fun x => e x.symm
    simp [e, this]

theorem Memory.seg_append {segs : List Segment} {free : List Nat} (g : Segment) (h' : Nat) :
    (Memory.mk (segs ++ [g]) free).seg h' = if h' = segs.length then g else (Memory.mk segs free).seg h' := by
  simp only [Memory.seg]
  rcases lt_trichotomy h' segs.length with hlt | heq | hgt
  · rw [List.getElem?_append_left hlt, if_neg (by omega)]
  · subst heq; simp
  · rw [if_neg (by omega), List.getElem?_eq_none (by simp; omega), List.getElem?_eq_none (by omega)]

theorem Memory.live_iff (m : Memory) (h : Nat) : m.live h = true ↔ h < m.count ∧ h ∉ m.free := by
  simp [Memory.live]

theorem Memory.wf_zero_live {m : Memory} (hm : m.wf) : m.live 0 = true :=
  (Memory.live_iff m 0).2 ⟨hm.1, fun h => (hm.2.2.2.2 0 h).1 rfl⟩

theorem Memory.wf_seg {m : Memory} (hm : m.wf) {h : Nat} (hh : h < m.count) : (m.seg h).wf = true :=
  hm.2.2.1 _ (Memory.seg_mem hh)

/-! ## The operations: when each goes through, and with what -/

theorem Memory.load_ok_iff (m : Memory) (h o v : Word) :
    m.load h o = .ok v ↔
      h.toNat < m.count ∧ h.toNat ∉ m.free ∧ o.toNat < m.segLen h.toNat ∧ v = (m.seg h.toNat).get o.toNat := by
  unfold Memory.load
  split_ifs with h1 h2 h3 <;> simp_all [eq_comm]

theorem Memory.load_error_iff (m : Memory) (h o : Word) (c : FatalCause) :
    m.load h o = .error c ↔
      ¬ (h.toNat < m.count ∧ h.toNat ∉ m.free ∧ o.toNat < m.segLen h.toNat) ∧ c = .segmentAccessFault h o := by
  unfold Memory.load
  split_ifs with h1 h2 h3 <;> simp_all [eq_comm]

theorem Memory.store_ok_iff (m : Memory) (h o v : Word) (m' : Memory) :
    m.store h o v = .ok m' ↔
      h.toNat < m.count ∧ h.toNat ∉ m.free ∧ o.toNat < m.segLen h.toNat ∧
        m' = { m with segs := m.segs.set h.toNat ((m.seg h.toNat).set o.toNat v) } := by
  unfold Memory.store
  split_ifs with h1 h2 h3 <;> simp_all [eq_comm]

theorem Memory.store_error_iff (m : Memory) (h o v : Word) (c : FatalCause) :
    m.store h o v = .error c ↔
      ¬ (h.toNat < m.count ∧ h.toNat ∉ m.free ∧ o.toNat < m.segLen h.toNat) ∧ c = .segmentAccessFault h o := by
  unfold Memory.store
  split_ifs with h1 h2 h3 <;> simp_all [eq_comm]

theorem Memory.fetch_ok_iff (m : Memory) (p w : Word) :
    m.fetch p = .ok w ↔ p.toNat < m.segLen 0 ∧ w = (m.seg 0).get p.toNat := by
  unfold Memory.fetch
  split_ifs with h1 <;> simp_all [eq_comm]

theorem Memory.fetch_error_iff (m : Memory) (p : Word) (c : FatalCause) :
    m.fetch p = .error c ↔ m.segLen 0 ≤ p.toNat ∧ c = .fetchOutOfRange p := by
  unfold Memory.fetch
  split_ifs with h1 <;> simp_all [eq_comm]

theorem Memory.allocate_ok_iff (m : Memory) (ok : Bool) (size : Word) (h : Nat) (m' : Memory) :
    m.allocate ok size = .ok (h, m') ↔
      ok = true ∧
        ((∃ rest, m.free = h :: rest ∧ m' = { segs := m.segs.set h (Segment.zeros size.toNat), free := rest }) ∨
          (m.free = [] ∧ m.count ≠ Config.maxHandles ∧ h = m.count ∧
            m' = { m with segs := m.segs ++ [Segment.zeros size.toNat] })) := by
  unfold Memory.allocate
  cases ok with
  | false => simp
  | true =>
    cases hf : m.free with
    | cons h0 rest =>
      simp only [Bool.true_eq_false, if_false, List.cons.injEq, true_and, reduceCtorEq, false_and, or_false,
        Except.ok.injEq, Prod.mk.injEq]
      constructor
      · rintro ⟨rfl, rfl⟩; exact ⟨rest, ⟨rfl, rfl⟩, rfl⟩
      · rintro ⟨r, ⟨rfl, rfl⟩, rfl⟩; exact ⟨rfl, rfl⟩
    | nil =>
      by_cases hc : m.count = Config.maxHandles
      · simp [hc]
      · simp only [Bool.true_eq_false, if_false, reduceCtorEq, false_and, exists_false, false_or, true_and,
          ne_eq, hc, not_false_eq_true, Except.ok.injEq, Prod.mk.injEq]
        exact ⟨fun h => ⟨h.1.symm, h.2.symm⟩, fun h => ⟨h.1.symm, h.2.symm⟩⟩

theorem Memory.allocate_error_iff (m : Memory) (ok : Bool) (size : Word) (c : FatalCause) :
    m.allocate ok size = .error c ↔
      (ok = false ∨ (m.free = [] ∧ m.count = Config.maxHandles)) ∧ c = .allocationFailure size := by
  unfold Memory.allocate
  cases ok with
  | false => simpa using eq_comm
  | true =>
    cases hf : m.free with
    | cons h0 rest => simp
    | nil =>
      by_cases hc : m.count = Config.maxHandles
      · simpa [hc] using eq_comm
      · simp [hc]

theorem Memory.deallocate_ok_iff (m : Memory) (h : Word) (m' : Memory) :
    m.deallocate h = .ok m' ↔
      h.toNat < m.count ∧ h ≠ 0#32 ∧ h.toNat ∉ m.free ∧
        m' = { segs := m.segs.set h.toNat (Segment.zeros 0), free := h.toNat :: m.free } := by
  unfold Memory.deallocate
  split_ifs with h1 h2 h3
  · exact ⟨fun e => (nomatch e), fun e => absurd e.1 (by omega)⟩
  · exact ⟨fun e => (nomatch e), fun e => absurd h2 e.2.1⟩
  · exact ⟨fun e => (nomatch e), fun e => absurd (by simpa using h3) e.2.2.1⟩
  · exact ⟨fun e => ⟨by omega, h2, by simpa using h3, by injection e with e; exact e.symm⟩,
      fun e => by rw [e.2.2.2]⟩

theorem Memory.deallocate_error_iff (m : Memory) (h : Word) (c : FatalCause) :
    m.deallocate h = .error c ↔
      ¬ (h.toNat < m.count ∧ h ≠ 0#32 ∧ h.toNat ∉ m.free) ∧ c = .invalidUnmap h := by
  unfold Memory.deallocate
  split_ifs with h1 h2 h3
  · exact ⟨fun e => ⟨fun x => by omega, by injection e with e; exact e.symm⟩, fun e => by rw [e.2]⟩
  · exact ⟨fun e => ⟨fun x => x.2.1 h2, by injection e with e; exact e.symm⟩, fun e => by rw [e.2]⟩
  · exact ⟨fun e => ⟨fun x => x.2.2 (by simpa using h3), by injection e with e; exact e.symm⟩, fun e => by rw [e.2]⟩
  · exact ⟨fun e => (nomatch e), fun e => absurd ⟨by omega, h2, by simpa using h3⟩ e.1⟩

theorem Memory.loadProgram_ok_iff (m : Memory) (h : Word) (m' : Memory) :
    m.loadProgram h = .ok m' ↔
      h.toNat < m.count ∧ h.toNat ∉ m.free ∧ m' = { m with segs := m.segs.set 0 (m.seg h.toNat) } := by
  unfold Memory.loadProgram
  split_ifs with h1 h2 <;> simp_all [eq_comm]

theorem Memory.loadProgram_error_iff (m : Memory) (h : Word) (c : FatalCause) :
    m.loadProgram h = .error c ↔
      ¬ (h.toNat < m.count ∧ h.toNat ∉ m.free) ∧ c = .invalidProgramHandle h := by
  unfold Memory.loadProgram
  split_ifs with h1 h2 <;> simp_all [eq_comm]

/-! ## Every operation keeps the canonical form (10_state R44) -/

/-- Replacing a slot by a canonical segment keeps `wf`, as long as no slot that stays free is filled. -/
theorem Memory.wf_set {m : Memory} (hm : m.wf) {h : Nat} (hh : h < m.count) {g : Segment} (hg : g.wf = true)
    {free : List Nat} (hnd : free.Nodup)
    (hfree : ∀ x ∈ free, x ≠ 0 ∧ x < m.count ∧ if x = h then g = Segment.zeros 0 else x ∈ m.free) :
    Memory.wf { segs := m.segs.set h g, free := free } := by
  refine ⟨?_, ?_, ?_, hnd, ?_⟩
  · simpa [Memory.count] using hm.1
  · simpa [Memory.count] using hm.2.1
  · intro x hx
    rcases List.mem_or_eq_of_mem_set hx with hx | rfl
    · exact hm.2.2.1 x hx
    · exact hg
  · intro x hx
    obtain ⟨h0, hlt, hcase⟩ := hfree x hx
    refine ⟨h0, by simpa [Memory.count] using hlt, ?_⟩
    rw [Memory.seg_set hh]
    split_ifs at hcase ⊢ with e
    · exact hcase
    · exact (hm.2.2.2.2 x hcase).2.2

theorem Memory.store_wf {m m' : Memory} {h o v : Word} (hm : m.wf) (hs : m.store h o v = .ok m') : m'.wf := by
  obtain ⟨hc, hf, hl, rfl⟩ := (Memory.store_ok_iff m h o v m').1 hs
  refine Memory.wf_set hm hc (Segment.set_wf (Memory.wf_seg hm hc) hl v) hm.2.2.2.1 fun x hx => ?_
  have hne : x ≠ h.toNat := fun e => hf (e ▸ hx)
  exact ⟨(hm.2.2.2.2 x hx).1, (hm.2.2.2.2 x hx).2.1, by simpa [hne] using hx⟩

theorem word_le_maxSegLen (w : Word) : w.toNat ≤ Config.maxSegLen := by
  have := w.isLt
  simp only [Config.maxSegLen]
  omega

theorem Memory.allocate_wf {m m' : Memory} {ok : Bool} {size : Word} {h : Nat} (hm : m.wf)
    (ha : m.allocate ok size = .ok (h, m')) : m'.wf := by
  obtain ⟨-, ⟨rest, hf, rfl⟩ | ⟨hf, hc, rfl, rfl⟩⟩ := (Memory.allocate_ok_iff m ok size h m').1 ha
  · have hnd := hm.2.2.2.1
    rw [hf, List.nodup_cons] at hnd
    have hin := hm.2.2.2.2
    rw [hf] at hin
    refine Memory.wf_set hm (hin h (by simp)).2.1 (Segment.zeros_wf (word_le_maxSegLen size)) hnd.2 fun x hx => ?_
    have hx' := hin x (by simp [hx])
    have hne : x ≠ h := fun e => hnd.1 (e ▸ hx)
    exact ⟨hx'.1, hx'.2.1, by rw [if_neg hne, hf]; simp [hx]⟩
  · have h2 := hm.2.1
    refine ⟨by simp [Memory.count], ?_, ?_, by simp [hf], by simp [hf]⟩
    · simp only [Memory.count, List.length_append, List.length_cons, List.length_nil] at h2 hc ⊢
      omega
    · intro x hx
      rcases List.mem_append.1 hx with hx | hx
      · exact hm.2.2.1 x hx
      · rw [List.mem_singleton.1 hx]
        exact Segment.zeros_wf (word_le_maxSegLen size)

theorem Memory.deallocate_wf {m m' : Memory} {h : Word} (hm : m.wf) (hd : m.deallocate h = .ok m') : m'.wf := by
  obtain ⟨hc, h0, hf, rfl⟩ := (Memory.deallocate_ok_iff m h m').1 hd
  refine Memory.wf_set hm hc (Segment.zeros_wf (Nat.zero_le _)) (List.nodup_cons.2 ⟨hf, hm.2.2.2.1⟩) fun x hx => ?_
  rcases List.mem_cons.1 hx with rfl | hx
  · refine ⟨fun e => h0 (BitVec.eq_of_toNat_eq (by simpa using e)), hc, by simp⟩
  · have hne : x ≠ h.toNat := fun e => hf (e ▸ hx)
    exact ⟨(hm.2.2.2.2 x hx).1, (hm.2.2.2.2 x hx).2.1, by simpa [hne] using hx⟩

theorem Memory.loadProgram_wf {m m' : Memory} {h : Word} (hm : m.wf) (hl : m.loadProgram h = .ok m') : m'.wf := by
  obtain ⟨hc, hf, rfl⟩ := (Memory.loadProgram_ok_iff m h m').1 hl
  refine Memory.wf_set hm hm.1 (Memory.wf_seg hm hc) hm.2.2.2.1 fun x hx => ?_
  have hx' := hm.2.2.2.2 x hx
  exact ⟨hx'.1, hx'.2.1, by simpa [hx'.1] using hx⟩

theorem Memory.new_wf {ws : List Word} (h : ws.length ≤ Config.maxSegLen) : (Memory.new ws).wf := by
  refine ⟨by simp [Memory.new, Memory.count], by simp [Memory.new, Memory.count, Config.maxHandles], ?_,
    by simp [Memory.new], by simp [Memory.new]⟩
  intro g hg
  rw [List.mem_singleton.1 hg]
  exact Segment.ofWords_wf h

/-- The host's placement of one word keeps the canonical form, at every offset but 2^32 - 1. -/
theorem Memory.placeWord_wf {m : Memory} (hm : m.wf) {p : Nat} (hp : p < Config.maxSegLen) (w : Word) :
    (m.placeWord p w).wf := by
  obtain ⟨segs, free⟩ := m
  cases segs with
  | nil => exact absurd hm.1 (by simp [Memory.count])
  | cons g rest =>
    have hg := (Segment.wf_iff g).1 (hm.2.2.1 g (by simp))
    have := Memory.wf_set (m := { segs := g :: rest, free := free }) hm (h := 0) (by simp [Memory.count])
      (g := { len := max g.len (p + 1), cells := cellsSet g.cells p w }) (free := free) ?_ hm.2.2.2.1 ?_
    · simpa [Memory.placeWord] using this
    · rw [Segment.wf_iff]
      exact ⟨by simp only; omega,
        cellsWf_cellsSet (cellsWf_len_mono (by simp only; omega) hg.2) (Nat.zero_le p) (by simp only; omega) w⟩
    · intro x hx
      have hx' := hm.2.2.2.2 x hx
      exact ⟨hx'.1, hx'.2.1, by simpa [hx'.1] using hx⟩

/-- The memory of the reset state is canonical. -/
theorem State.reset_mem_wf : State.reset.mem.wf := Memory.new_wf (ws := []) (Nat.zero_le _)

end Sys2Proof.Machine
end

