-- ==== Sys2Proof/Laws/State.lean ====
section
/-! SUPPORT. One lemma per field per update of the state, and the reads of a register after each update. -/

namespace Sys2Proof.Machine

variable (s : State)

@[simp] theorem State.setReg_pc (i : RegIx) (v : Word) : (s.setReg i v).pc = s.pc := rfl
@[simp] theorem State.setReg_mem (i : RegIx) (v : Word) : (s.setReg i v).mem = s.mem := rfl
@[simp] theorem State.setReg_status (i : RegIx) (v : Word) : (s.setReg i v).status = s.status := rfl
@[simp] theorem State.setReg_icount (i : RegIx) (v : Word) : (s.setReg i v).icount = s.icount := rfl
@[simp] theorem State.setReg_inPos (i : RegIx) (v : Word) : (s.setReg i v).inPos = s.inPos := rfl
@[simp] theorem State.setReg_out (i : RegIx) (v : Word) : (s.setReg i v).out = s.out := rfl
@[simp] theorem State.setReg_input (i : RegIx) (v : Word) : (s.setReg i v).input = s.input := rfl
@[simp] theorem State.setReg_alloc (i : RegIx) (v : Word) : (s.setReg i v).alloc = s.alloc := rfl

@[simp] theorem State.setPc_regs (t : Word) : (s.setPc t).regs = s.regs := rfl
@[simp] theorem State.setPc_pc (t : Word) : (s.setPc t).pc = t := rfl
@[simp] theorem State.setPc_mem (t : Word) : (s.setPc t).mem = s.mem := rfl
@[simp] theorem State.setPc_status (t : Word) : (s.setPc t).status = s.status := rfl
@[simp] theorem State.setPc_icount (t : Word) : (s.setPc t).icount = s.icount := rfl
@[simp] theorem State.setPc_inPos (t : Word) : (s.setPc t).inPos = s.inPos := rfl
@[simp] theorem State.setPc_out (t : Word) : (s.setPc t).out = s.out := rfl
@[simp] theorem State.setPc_input (t : Word) : (s.setPc t).input = s.input := rfl
@[simp] theorem State.setPc_alloc (t : Word) : (s.setPc t).alloc = s.alloc := rfl
@[simp] theorem State.setPc_reg (t : Word) (r : RegIx) : (s.setPc t).reg r = s.reg r := rfl

@[simp] theorem State.setMem_regs (m : Memory) : (s.setMem m).regs = s.regs := rfl
@[simp] theorem State.setMem_pc (m : Memory) : (s.setMem m).pc = s.pc := rfl
@[simp] theorem State.setMem_mem (m : Memory) : (s.setMem m).mem = m := rfl
@[simp] theorem State.setMem_status (m : Memory) : (s.setMem m).status = s.status := rfl
@[simp] theorem State.setMem_icount (m : Memory) : (s.setMem m).icount = s.icount := rfl
@[simp] theorem State.setMem_inPos (m : Memory) : (s.setMem m).inPos = s.inPos := rfl
@[simp] theorem State.setMem_out (m : Memory) : (s.setMem m).out = s.out := rfl
@[simp] theorem State.setMem_input (m : Memory) : (s.setMem m).input = s.input := rfl
@[simp] theorem State.setMem_alloc (m : Memory) : (s.setMem m).alloc = s.alloc := rfl
@[simp] theorem State.setMem_reg (m : Memory) (r : RegIx) : (s.setMem m).reg r = s.reg r := rfl

@[simp] theorem State.setStatus_regs (st : Status) : (s.setStatus st).regs = s.regs := rfl
@[simp] theorem State.setStatus_pc (st : Status) : (s.setStatus st).pc = s.pc := rfl
@[simp] theorem State.setStatus_mem (st : Status) : (s.setStatus st).mem = s.mem := rfl
@[simp] theorem State.setStatus_status (st : Status) : (s.setStatus st).status = st := rfl
@[simp] theorem State.setStatus_icount (st : Status) : (s.setStatus st).icount = s.icount := rfl
@[simp] theorem State.setStatus_inPos (st : Status) : (s.setStatus st).inPos = s.inPos := rfl
@[simp] theorem State.setStatus_out (st : Status) : (s.setStatus st).out = s.out := rfl
@[simp] theorem State.setStatus_input (st : Status) : (s.setStatus st).input = s.input := rfl
@[simp] theorem State.setStatus_alloc (st : Status) : (s.setStatus st).alloc = s.alloc := rfl
@[simp] theorem State.setStatus_reg (st : Status) (r : RegIx) : (s.setStatus st).reg r = s.reg r := rfl

@[simp] theorem State.outByte_regs (b : Byte) : (s.outByte b).regs = s.regs := rfl
@[simp] theorem State.outByte_pc (b : Byte) : (s.outByte b).pc = s.pc := rfl
@[simp] theorem State.outByte_mem (b : Byte) : (s.outByte b).mem = s.mem := rfl
@[simp] theorem State.outByte_status (b : Byte) : (s.outByte b).status = s.status := rfl
@[simp] theorem State.outByte_icount (b : Byte) : (s.outByte b).icount = s.icount := rfl
@[simp] theorem State.outByte_inPos (b : Byte) : (s.outByte b).inPos = s.inPos := rfl
@[simp] theorem State.outByte_out (b : Byte) : (s.outByte b).out = s.out ++ [b] := rfl
@[simp] theorem State.outByte_input (b : Byte) : (s.outByte b).input = s.input := rfl
@[simp] theorem State.outByte_alloc (b : Byte) : (s.outByte b).alloc = s.alloc := rfl
@[simp] theorem State.outByte_reg (b : Byte) (r : RegIx) : (s.outByte b).reg r = s.reg r := rfl

@[simp] theorem State.advance_regs : (s.advance).regs = s.regs := rfl
@[simp] theorem State.advance_pc : (s.advance).pc = s.pc + 1 := rfl
@[simp] theorem State.advance_mem : (s.advance).mem = s.mem := rfl
@[simp] theorem State.advance_status : (s.advance).status = s.status := rfl
@[simp] theorem State.advance_icount : (s.advance).icount = s.icount + 1 := rfl
@[simp] theorem State.advance_inPos : (s.advance).inPos = s.inPos := rfl
@[simp] theorem State.advance_out : (s.advance).out = s.out := rfl
@[simp] theorem State.advance_input : (s.advance).input = s.input := rfl
@[simp] theorem State.advance_alloc : (s.advance).alloc = s.alloc := rfl
@[simp] theorem State.advance_reg (r : RegIx) : (s.advance).reg r = s.reg r := rfl

@[simp] theorem State.fatalStop_regs (c : FatalCause) : (s.fatalStop c).regs = s.regs := rfl
@[simp] theorem State.fatalStop_pc (c : FatalCause) : (s.fatalStop c).pc = s.pc := rfl
@[simp] theorem State.fatalStop_mem (c : FatalCause) : (s.fatalStop c).mem = s.mem := rfl
@[simp] theorem State.fatalStop_status (c : FatalCause) : (s.fatalStop c).status = .fatal c := rfl
@[simp] theorem State.fatalStop_icount (c : FatalCause) : (s.fatalStop c).icount = s.icount := rfl
@[simp] theorem State.fatalStop_inPos (c : FatalCause) : (s.fatalStop c).inPos = s.inPos := rfl
@[simp] theorem State.fatalStop_out (c : FatalCause) : (s.fatalStop c).out = s.out := rfl
@[simp] theorem State.fatalStop_input (c : FatalCause) : (s.fatalStop c).input = s.input := rfl
@[simp] theorem State.fatalStop_alloc (c : FatalCause) : (s.fatalStop c).alloc = s.alloc := rfl
@[simp] theorem State.fatalStop_reg (c : FatalCause) (r : RegIx) : (s.fatalStop c).reg r = s.reg r := rfl

/-- A register write is read back, and no other register changes (10_state R25, R28). -/
theorem State.setReg_reg (i : RegIx) (v : Word) (r : RegIx) :
    (s.setReg i v).reg r = if r = i then v else s.reg r := by
  have hi := BitVec.toNat_inj (x := i) (y := r)
  by_cases h : r = i
  · subst h
    simp [State.setReg, State.reg]
  · have : i.toNat ≠ r.toNat := fun e => h (hi.1 e).symm
    simp [State.setReg, State.reg, h, this]

@[simp] theorem State.setReg_reg_self (i : RegIx) (v : Word) : (s.setReg i v).reg i = v := by
  simp [State.setReg_reg]

theorem State.setReg_reg_ne {i r : RegIx} (v : Word) (h : r ≠ i) : (s.setReg i v).reg r = s.reg r := by
  simp [State.setReg_reg, h]

/-! ## `InByte` -/

@[simp] theorem State.inByte_fst : s.inByte.1 = s.input.byte s.inPos := by
  unfold State.inByte
  split <;> simp_all

/-- 44_io R183: a byte taken advances `in_pos`; EOS does not. -/
theorem State.inByte_snd : s.inByte.2 = if (s.input.byte s.inPos).isSome then { s with inPos := s.inPos + 1 } else s := by
  unfold State.inByte
  split <;> simp_all

@[simp] theorem State.inByte_regs : s.inByte.2.regs = s.regs := by
  unfold State.inByte
  split <;> rfl

@[simp] theorem State.inByte_pc : s.inByte.2.pc = s.pc := by
  unfold State.inByte
  split <;> rfl

@[simp] theorem State.inByte_mem : s.inByte.2.mem = s.mem := by
  unfold State.inByte
  split <;> rfl

@[simp] theorem State.inByte_status : s.inByte.2.status = s.status := by
  unfold State.inByte
  split <;> rfl

@[simp] theorem State.inByte_icount : s.inByte.2.icount = s.icount := by
  unfold State.inByte
  split <;> rfl

@[simp] theorem State.inByte_out : s.inByte.2.out = s.out := by
  unfold State.inByte
  split <;> rfl

@[simp] theorem State.inByte_input : s.inByte.2.input = s.input := by
  unfold State.inByte
  split <;> rfl

@[simp] theorem State.inByte_alloc : s.inByte.2.alloc = s.alloc := by
  unfold State.inByte
  split <;> rfl

@[simp] theorem State.inByte_reg (r : RegIx) : s.inByte.2.reg r = s.reg r := by
  simp [State.reg]

theorem State.inByte_inPos :
    s.inByte.2.inPos = if (s.input.byte s.inPos).isSome then s.inPos + 1 else s.inPos := by
  rw [State.inByte_snd]
  split <;> rfl

/-! ## `settle` and `conclude` -/

@[simp] theorem State.settle_ok (t : State) : s.settle (.ok t) = t := rfl
@[simp] theorem State.settle_error (c : FatalCause) : s.settle (.error c) = s.fatalStop c := rfl

theorem conclude_ok (t : State) : conclude s (.ok t) = .next t := rfl
theorem conclude_error (c : FatalCause) : conclude s (.error c) = .next (s.fatalStop c) := rfl

/-- A meaning answers the state its operation built, or the fatal stop it raised, and nothing else. -/
theorem conclude_next {r : Except FatalCause State} {t : State} (h : conclude s r = .next t) :
    r = .ok t ∨ ∃ c, r = .error c ∧ t = s.fatalStop c := by
  cases r with
  | ok u => exact .inl (by injection h with h; rw [← h]; rfl)
  | error c => exact .inr ⟨c, rfl, by injection h with h; exact h.symm⟩

end Sys2Proof.Machine
end

