-- ==== Sys2Proof/Laws/Exec.lean ====
section
/-! SUPPORT. The next state of each instruction, case by case: what `exec` answers where the operation it calls
goes through and where it raises. Together with the lemmas of Laws/Memory.lean on the operations, nobody
needs to unfold a meaning. -/

namespace Sys2Proof.Machine

variable (a b c : RegIx) (s : State)

theorem State.nonZero_iff (i : RegIx) : s.nonZero i = true ↔ s.reg i ≠ 0#32 := by
  simp [State.nonZero]

theorem exec_cmov_moves (h : s.reg c ≠ 0#32) : exec (.cmov a b c) s = .next (s.setReg a (s.reg b)) := by
  simp only [exec, execCmov, (State.nonZero_iff s c).2 h, if_true, conclude_ok]

theorem exec_cmov_keeps (h : s.reg c = 0#32) : exec (.cmov a b c) s = .next s := by
  simp only [exec, execCmov, State.nonZero, h, bne_self_eq_false, Bool.false_eq_true, if_false, conclude_ok]

theorem exec_sload_ok {v : Word} (h : s.mem.load (s.reg b) (s.reg c) = .ok v) :
    exec (.sload a b c) s = .next (s.setReg a v) := by
  simp only [exec, execSload, h, Except.map, conclude_ok]

theorem exec_sload_error {e : FatalCause} (h : s.mem.load (s.reg b) (s.reg c) = .error e) :
    exec (.sload a b c) s = .next (s.fatalStop e) := by
  simp only [exec, execSload, h, Except.map, conclude_error]

theorem exec_sstore_ok {m : Memory} (h : s.mem.store (s.reg a) (s.reg b) (s.reg c) = .ok m) :
    exec (.sstore a b c) s = .next (s.setMem m) := by
  simp only [exec, execSstore, h, Except.map, conclude_ok]

theorem exec_sstore_error {e : FatalCause} (h : s.mem.store (s.reg a) (s.reg b) (s.reg c) = .error e) :
    exec (.sstore a b c) s = .next (s.fatalStop e) := by
  simp only [exec, execSstore, h, Except.map, conclude_error]

theorem exec_add : exec (.add a b c) s = .next (s.setReg a (s.reg b + s.reg c)) := rfl

theorem exec_mul : exec (.mul a b c) s = .next (s.setReg a (s.reg b * s.reg c)) := rfl

theorem exec_nand : exec (.nand a b c) s = .next (s.setReg a (nand32 (s.reg b) (s.reg c))) := rfl

theorem exec_div_ok (h : s.reg c ≠ 0#32) :
    exec (.div a b c) s = .next (s.setReg a (BitVec.ofNat 32 ((s.reg b).toNat / (s.reg c).toNat))) := by
  simp only [exec, execDiv, udiv, if_neg h, Except.map, conclude_ok]

theorem exec_div_zero (h : s.reg c = 0#32) : exec (.div a b c) s = .next (s.fatalStop .divideByZero) := by
  simp only [exec, execDiv, udiv, if_pos h, Except.map, conclude_error]

/-- The quotient is at most the dividend, so it fits a Word (42_arithmetic R162 corner case 2). -/
theorem quotient_toNat (v w : Word) : (BitVec.ofNat 32 (v.toNat / w.toNat)).toNat = v.toNat / w.toNat := by
  rw [BitVec.toNat_ofNat, Nat.mod_eq_of_lt (lt_of_le_of_lt (Nat.div_le_self _ _) v.isLt)]

theorem exec_halt : exec (.halt a b c) s = .next (s.setStatus .halted) := rfl

theorem exec_map_ok {h : Nat} {m : Memory} (hm : s.mem.allocate (s.allocOk (s.reg c)) (s.reg c) = .ok (h, m)) :
    exec (.map a b c) s = .next ((s.setMem m).setReg b (BitVec.ofNat 32 h)) := by
  simp only [exec, execMap, hm, Except.map, conclude_ok]

theorem exec_map_error {e : FatalCause} (h : s.mem.allocate (s.allocOk (s.reg c)) (s.reg c) = .error e) :
    exec (.map a b c) s = .next (s.fatalStop e) := by
  simp only [exec, execMap, h, Except.map, conclude_error]

theorem exec_unmap_ok {m : Memory} (h : s.mem.deallocate (s.reg c) = .ok m) :
    exec (.unmap a b c) s = .next (s.setMem m) := by
  simp only [exec, execUnmap, h, Except.map, conclude_ok]

theorem exec_unmap_error {e : FatalCause} (h : s.mem.deallocate (s.reg c) = .error e) :
    exec (.unmap a b c) s = .next (s.fatalStop e) := by
  simp only [exec, execUnmap, h, Except.map, conclude_error]

theorem exec_out : exec (.out a b c) s = .next (s.outByte (lowByte (s.reg c))) := rfl

theorem exec_inp : exec (.inp a b c) s = .next (s.inByte.2.setReg c (inputWord s.inByte.1)) := rfl

theorem exec_loadp_jump (h : s.reg b = 0#32) : exec (.loadp a b c) s = .next (s.setPc (s.reg c)) := by
  simp only [exec, execLoadp, State.nonZero, h, bne_self_eq_false, Bool.false_eq_true, if_false, Except.map,
    conclude_ok]
  rfl

theorem exec_loadp_ok {m : Memory} (hb : s.reg b ≠ 0#32) (h : s.mem.loadProgram (s.reg b) = .ok m) :
    exec (.loadp a b c) s = .next ((s.setMem m).setPc (s.reg c)) := by
  simp only [exec, execLoadp, (State.nonZero_iff s b).2 hb, if_true, h, Except.map, conclude_ok]

theorem exec_loadp_error {e : FatalCause} (hb : s.reg b ≠ 0#32) (h : s.mem.loadProgram (s.reg b) = .error e) :
    exec (.loadp a b c) s = .next (s.fatalStop e) := by
  simp only [exec, execLoadp, (State.nonZero_iff s b).2 hb, if_true, h, Except.map, conclude_error]

theorem exec_loadi (l : RegIx) (imm : Imm) : exec (.loadi l imm) s = .next (s.setReg l (immOperand imm)) := rfl

end Sys2Proof.Machine
end

