-- ==== Sys2Proof/Laws/Step.lean ====
section
/-! SUPPORT. What a step can do, said once: when it is taken, what the fetch answers, and that each meaning
answers a next state. -/

namespace Sys2Proof.Machine

theorem State.terminal_eq_none_iff (s : State) : s.terminal = none ↔ s.status = .running := by
  unfold State.terminal
  split <;> simp_all

theorem State.fetchInstr_ok_iff (s : State) (i : Instr) :
    s.fetchInstr = .ok i ↔ ∃ w, s.mem.fetch s.pc = .ok w ∧ decode w = .ok i := by
  unfold State.fetchInstr
  cases hf : s.mem.fetch s.pc with
  | error c => simp
  | ok w => cases hd : decode w <;> simp [hd]

/-- 60_exceptions R211: a failing fetch is reported first, then a failing decode. -/
theorem State.fetchInstr_error_iff (s : State) (c : FatalCause) :
    s.fetchInstr = .error c ↔
      s.mem.fetch s.pc = .error c ∨
        ∃ w e, s.mem.fetch s.pc = .ok w ∧ decode w = .error e ∧ c = .illegalOpcode s.pc w := by
  unfold State.fetchInstr
  cases hf : s.mem.fetch s.pc with
  | error c' => simp
  | ok w =>
    cases hd : decode w with
    | ok i => simp [hd]
    | error e =>
      constructor
      · intro h
        simp only [hd] at h
        injection h with h
        exact .inr ⟨w, e, rfl, hd, h.symm⟩
      · rintro (h | ⟨w', e', h, -, rfl⟩)
        · exact nomatch h
        · injection h with h
          subst h
          simp only [hd]

/-- The inversion of `step`: it was taken while running, and either the fetch or the decode failed and nothing
but the status changed, or the fetched instruction ran on the advanced state. -/
theorem step_next {s t : State} (h : step s = .next t) :
    s.status = .running ∧
      ((∃ c, s.fetchInstr = .error c ∧ t = s.fatalStop c) ∨ ∃ i, s.fetchInstr = .ok i ∧ exec i s.advance = .next t) := by
  unfold step at h
  cases ht : s.terminal with
  | some f => simp [ht] at h
  | none =>
    refine ⟨(State.terminal_eq_none_iff s).1 ht, ?_⟩
    cases hf : s.fetchInstr with
    | error c =>
      simp only [ht, hf] at h
      injection h with h
      exact .inl ⟨c, rfl, h.symm⟩
    | ok i =>
      simp only [ht, hf] at h
      exact .inr ⟨i, rfl, h⟩

end Sys2Proof.Machine
end

