-- ==== Sys2Proof/Laws/Effect.lean ====
section
/-! SUPPORT. Once, everything an instruction and a step can do: the inversion of `exec` over all instructions, and
which next state a running step answers. -/

namespace Sys2Proof.Machine

/-- The next states instruction `i` can lead to from `s`: one constructor per kind of effect. -/
inductive Effect (i : Instr) (s : State) : State → Prop
  | writesRegister (d : RegIx) (v : Word) :
      destination i = some d → i.opcode ∉ [8, 11] → Effect i s (s.setReg d v)
  | nothing : i.opcode = 0 → Effect i s s
  | stores (h o v : Word) (m : Memory) : i.opcode = 2 → s.mem.store h o v = .ok m → Effect i s (s.setMem m)
  | halts (a b c : RegIx) : i = .halt a b c → Effect i s (s.setStatus .halted)
  | maps (a b c : RegIx) (h : Nat) (m : Memory) :
      i = .map a b c → s.mem.allocate (s.allocOk (s.reg c)) (s.reg c) = .ok (h, m) →
        Effect i s ((s.setMem m).setReg b (BitVec.ofNat 32 h))
  | unmaps (h : Word) (m : Memory) : i.opcode = 9 → s.mem.deallocate h = .ok m → Effect i s (s.setMem m)
  | outputs (a b c : RegIx) : i = .out a b c → Effect i s (s.outByte (lowByte (s.reg c)))
  | inputs (a b c : RegIx) : i = .inp a b c → Effect i s (s.inByte.2.setReg c (inputWord s.inByte.1))
  | jumps (t : Word) : i.opcode = 12 → Effect i s (s.setPc t)
  | loads (h : Word) (m : Memory) (t : Word) :
      i.opcode = 12 → s.mem.loadProgram h = .ok m → Effect i s ((s.setMem m).setPc t)
  | stops (c : FatalCause) : raisable i = some c.code → Effect i s (s.fatalStop c)

/-- The inversion of `exec`. -/
theorem exec_effect {i : Instr} {s t : State} (h : exec i s = .next t) : Effect i s t := by
  cases i with
  | cmov a b c =>
    by_cases hc : s.reg c = 0#32
    · rw [exec_cmov_keeps a b c s hc] at h; injection h with h; subst h
      exact .nothing rfl
    · rw [exec_cmov_moves a b c s hc] at h; injection h with h; subst h
      exact .writesRegister _ _ rfl (by simp [Instr.opcode])
  | sload a b c =>
    cases hl : s.mem.load (s.reg b) (s.reg c) with
    | ok v =>
      rw [exec_sload_ok a b c s hl] at h; injection h with h; subst h
      exact .writesRegister _ _ rfl (by simp [Instr.opcode])
    | error e =>
      rw [exec_sload_error a b c s hl] at h; injection h with h; subst h
      obtain ⟨_, rfl⟩ := (Memory.load_error_iff _ _ _ _).1 hl
      exact .stops _ rfl
  | sstore a b c =>
    cases hl : s.mem.store (s.reg a) (s.reg b) (s.reg c) with
    | ok v =>
      rw [exec_sstore_ok a b c s hl] at h; injection h with h; subst h
      exact .stores _ _ _ _ rfl hl
    | error e =>
      rw [exec_sstore_error a b c s hl] at h; injection h with h; subst h
      obtain ⟨_, rfl⟩ := (Memory.store_error_iff _ _ _ _ _).1 hl
      exact .stops _ rfl
  | add a b c =>
    rw [exec_add] at h; injection h with h; subst h
    exact .writesRegister _ _ rfl (by simp [Instr.opcode])
  | mul a b c =>
    rw [exec_mul] at h; injection h with h; subst h
    exact .writesRegister _ _ rfl (by simp [Instr.opcode])
  | div a b c =>
    by_cases hc : s.reg c = 0#32
    · rw [exec_div_zero a b c s hc] at h; injection h with h; subst h
      exact .stops _ rfl
    · rw [exec_div_ok a b c s hc] at h; injection h with h; subst h
      exact .writesRegister _ _ rfl (by simp [Instr.opcode])
  | nand a b c =>
    rw [exec_nand] at h; injection h with h; subst h
    exact .writesRegister _ _ rfl (by simp [Instr.opcode])
  | halt a b c =>
    rw [exec_halt] at h; injection h with h; subst h
    exact .halts _ _ _ rfl
  | map a b c =>
    cases hl : s.mem.allocate (s.allocOk (s.reg c)) (s.reg c) with
    | ok v =>
      obtain ⟨x, m⟩ := v
      rw [exec_map_ok a b c s hl] at h; injection h with h; subst h
      exact .maps _ _ _ _ _ rfl hl
    | error e =>
      rw [exec_map_error a b c s hl] at h; injection h with h; subst h
      obtain ⟨_, rfl⟩ := (Memory.allocate_error_iff _ _ _ _).1 hl
      exact .stops _ rfl
  | unmap a b c =>
    cases hl : s.mem.deallocate (s.reg c) with
    | ok v =>
      rw [exec_unmap_ok a b c s hl] at h; injection h with h; subst h
      exact .unmaps _ _ rfl hl
    | error e =>
      rw [exec_unmap_error a b c s hl] at h; injection h with h; subst h
      obtain ⟨_, rfl⟩ := (Memory.deallocate_error_iff _ _ _).1 hl
      exact .stops _ rfl
  | out a b c =>
    rw [exec_out] at h; injection h with h; subst h
    exact .outputs _ _ _ rfl
  | inp a b c =>
    rw [exec_inp] at h; injection h with h; subst h
    exact .inputs _ _ _ rfl
  | loadp a b c =>
    by_cases hb : s.reg b = 0#32
    · rw [exec_loadp_jump a b c s hb] at h; injection h with h; subst h
      exact .jumps _ rfl
    · cases hl : s.mem.loadProgram (s.reg b) with
      | ok v =>
        rw [exec_loadp_ok a b c s hb hl] at h; injection h with h; subst h
        exact .loads _ _ _ rfl hl
      | error e =>
        rw [exec_loadp_error a b c s hb hl] at h; injection h with h; subst h
        obtain ⟨_, rfl⟩ := (Memory.loadProgram_error_iff _ _ _).1 hl
        exact .stops _ rfl
  | loadi l imm =>
    rw [exec_loadi] at h; injection h with h; subst h
    exact .writesRegister _ _ rfl (by simp [Instr.opcode])

/-- Every meaning answers a next state: none refuses, and a fatal stop is a next state too (60_exceptions R210). -/
theorem exec_answers_next (i : Instr) (s : State) : ∃ t, exec i s = .next t := by
  cases i <;> exact ⟨_, rfl⟩

/-- A running step whose fetch and decode go through is `exec` on the advanced state. -/
theorem step_of_fetched {s : State} {i : Instr} (hr : s.status = .running) (hf : s.fetchInstr = .ok i) :
    step s = exec i s.advance := by
  unfold step
  rw [(State.terminal_eq_none_iff s).2 hr]
  simp only [hf]

/-- A running step whose fetch or decode fails is a fatal stop of the state as it is. -/
theorem step_of_fetch_error {s : State} {c : FatalCause} (hr : s.status = .running) (hf : s.fetchInstr = .error c) :
    step s = .next (s.fatalStop c) := by
  unfold step
  rw [(State.terminal_eq_none_iff s).2 hr]
  simp only [hf]

end Sys2Proof.Machine
end

