-- ==== Sys2Proof/Laws/PerInstr.lean ====
section
/-! SUPPORT. A statement made of every instruction: its word carries its own opcode number in the top four bits,
so it is a valid word (30_encoding R109, R115 (b)). -/

namespace Sys2Proof.Laws.EncodedOpcode

/-- The word of `i` has the opcode number of `i`, and is valid. -/
def Statement (i : Instr) : Prop := (opcodeOf (encode i)).toNat = i.opcode ∧ validWord (encode i) = true

/-- A word whose top four bits are below 14 is valid (30_encoding R106). -/
theorem validWord_of_opcode {w : Word} (h : (opcodeOf w).toNat < 14) : validWord w = true := by
  rw [opcodeOf_toNat] at h
  have h28 : w.toNat < 14 * 2 ^ 28 := by omega
  by_contra hv
  simp only [validWord, Bool.not_eq_true, Bool.not_eq_false', Bool.and_eq_true, BitVec.getLsbD] at hv
  obtain ⟨⟨h31, h30⟩, h29⟩ := hv
  simp only [Nat.testBit_eq_decide_div_mod_eq, decide_eq_true_eq] at h31 h30 h29
  omega

theorem of_three {op : Nat} (h : op < 14) (a b c : RegIx) :
    (opcodeOf (threeWord op a b c)).toNat = op ∧ validWord (threeWord op a b c) = true := by
  have hf := (threeWord_fields (by omega : op < 16) a b c).1
  exact ⟨hf, validWord_of_opcode (by omega)⟩

theorem cmov (a b c : RegIx) : Statement (.cmov a b c) := of_three (by decide) a b c
theorem sload (a b c : RegIx) : Statement (.sload a b c) := of_three (by decide) a b c
theorem sstore (a b c : RegIx) : Statement (.sstore a b c) := of_three (by decide) a b c
theorem add (a b c : RegIx) : Statement (.add a b c) := of_three (by decide) a b c
theorem mul (a b c : RegIx) : Statement (.mul a b c) := of_three (by decide) a b c
theorem div (a b c : RegIx) : Statement (.div a b c) := of_three (by decide) a b c
theorem nand (a b c : RegIx) : Statement (.nand a b c) := of_three (by decide) a b c
theorem halt (a b c : RegIx) : Statement (.halt a b c) := of_three (by decide) a b c
theorem map (a b c : RegIx) : Statement (.map a b c) := of_three (by decide) a b c
theorem unmap (a b c : RegIx) : Statement (.unmap a b c) := of_three (by decide) a b c
theorem out (a b c : RegIx) : Statement (.out a b c) := of_three (by decide) a b c
theorem inp (a b c : RegIx) : Statement (.inp a b c) := of_three (by decide) a b c
theorem loadp (a b c : RegIx) : Statement (.loadp a b c) := of_three (by decide) a b c

theorem loadi (l : RegIx) (imm : Imm) : Statement (.loadi l imm) := by
  have hf := (immWord_fields l imm).1
  exact ⟨hf, validWord_of_opcode (w := immWord l imm) (by omega)⟩

end Sys2Proof.Laws.EncodedOpcode
end

