-- ==== Sys2Proof/Tests/Slice0.lean ====
section
/-! SUPPORT. The model's own tests. Expected results are those of spec/95_test_vectors (the vector's id stands at
each test) or are worked out by hand from the rule named. The witnesses at the end show that the hypotheses of
the statements can be met, clause by clause, at the edges where clauses meet. -/

namespace Sys2Proof.Tests

open Sys2Proof Sys2Proof.Machine

/-! ## Ill-formed data is refused (WellFormed.lean) -/

/-- 30_encoding R106, R110: 0xDFFFFFFF is valid, 0xE0000000 and 0xFFFFFFFF are not. -/
theorem test_validWord : validWord 0xDFFFFFFF#32 = true ∧ validWord 0xE0000000#32 = false ∧
    validWord 0xFFFFFFFF#32 = false := by decide

/-- R114: bit 9 set in a three-register word is not canonical; in an immediate word it is data (V-D9, V-D8). -/
theorem test_canonicalWord : canonicalWord 0xC0000238#32 = false ∧ canonicalWord 0xC0000038#32 = true ∧
    canonicalWord 0xD0000238#32 = true ∧ canonicalWord 0xE0000000#32 = false := by decide

/-- R106: `is_imm`. -/
theorem test_immediateWord : immediateWord 0xD0000000#32 = true ∧ immediateWord 0xC0000000#32 = false := by decide

/-- R118: `in r0` with a non-zero ignored field is not what the syntax writes (V-D21). -/
theorem test_unusedFieldsZero : (Instr.inp 1 0 0).unusedFieldsZero = false ∧ (Instr.halt 0 0 1).unusedFieldsZero = false ∧
    (Instr.map 1 2 1).unusedFieldsZero = false ∧ (Instr.loadp 1 0 0).unusedFieldsZero = false ∧
    (Instr.unmap 0 1 0).unusedFieldsZero = false ∧ (Instr.out 0 1 0).unusedFieldsZero = false ∧
    (Instr.map 0 2 1).unusedFieldsZero = true := by decide

/-- 70_reset R235: 5 bytes are no image, nor are 4 * 2^32. -/
theorem test_imageLengthOk : imageLengthOk 5 = false ∧ imageLengthOk (4 * 2 ^ 32) = false ∧
    imageLengthOk (4 * 2 ^ 32 - 4) = true ∧ imageLengthOk 0 = true := by decide

/-! ## Decoding: one word per constructor, written from 30_encoding R103, R104 and R109, and V-D1 to V-D21 -/

/-- `cmov r1, r2, r3`: 0000, 19 zeros, 001 010 011. -/
theorem test_decode_cmov : decode 0b00000000000000000000000001010011#32 = .ok (.cmov 1 2 3) := by decide
/-- `sload r5, r2, r4`: 0001, 19 zeros, 101 010 100. -/
theorem test_decode_sload : decode 0b00010000000000000000000101010100#32 = .ok (.sload 5 2 4) := by decide
/-- `sstore r2, r4, r3`: 0010, 19 zeros, 010 100 011. -/
theorem test_decode_sstore : decode 0b00100000000000000000000010100011#32 = .ok (.sstore 2 4 3) := by decide
/-- V-D5: `add r3, r1, r2` with bits 27 to 9 set at will. -/
theorem test_decode_add : decode 0b00111010101111001101111011001010#32 = .ok (.add 3 1 2) := by decide
/-- `mul r5, r3, r4`: 0100, 19 zeros, 101 011 100. -/
theorem test_decode_mul : decode 0b01000000000000000000000101011100#32 = .ok (.mul 5 3 4) := by decide
/-- `div r3, r2, r1`: 0101, 19 zeros, 011 010 001. -/
theorem test_decode_div : decode 0b01010000000000000000000011010001#32 = .ok (.div 3 2 1) := by decide
/-- `nand r7, r0, r0`: 0110, 19 zeros, 111 000 000. -/
theorem test_decode_nand : decode 0b01100000000000000000000111000000#32 = .ok (.nand 7 0 0) := by decide
/-- V-D3: a Halt with every other bit set. -/
theorem test_decode_halt : decode 0b01111111111111111111111111111111#32 = .ok (.halt 7 7 7) := by decide
/-- V-D14: `map r2, r1`. -/
theorem test_decode_map : decode 0b10000000000000000000000000010001#32 = .ok (.map 0 2 1) := by decide
/-- V-D20: `unmap r7`. -/
theorem test_decode_unmap : decode 0b10010000000000000000000000000111#32 = .ok (.unmap 0 0 7) := by decide
/-- `out r5`: 1010, 19 zeros, 000 000 101. -/
theorem test_decode_out : decode 0b10100000000000000000000000000101#32 = .ok (.out 0 0 5) := by decide
/-- V-D21: `in r0` with a non-zero ignored field. -/
theorem test_decode_inp : decode 0b10110000000000000000000001000000#32 = .ok (.inp 1 0 0) := by decide
/-- V-D9: `loadp r7, r0` with don't-care bits set; bit 9 is no part of `a`. -/
theorem test_decode_loadp : decode 0b11001111111111111111111000111000#32 = .ok (.loadp 0 7 0) := by decide
/-- V-D6: `loadi r3, 42`; V-D8: the low nine bits are immediate. -/
theorem test_decode_loadi : decode 0b11010110000000000000000000101010#32 = .ok (.loadi 3 42) ∧
    decode 0xD00001FF#32 = .ok (.loadi 0 511) := by decide
/-- V-D10 to V-D13: the invalid words. -/
theorem test_decode_invalid : decode 0xE0000000#32 = .error (.illegalOpcode 14) ∧
    decode 0xEFFFFFFF#32 = .error (.illegalOpcode 14) ∧ decode 0xF0000000#32 = .error (.illegalOpcode 15) ∧
    decode 0xFFFFFFFF#32 = .error (.illegalOpcode 15) := by decide
/-- V-D5, V-D7: the canonical re-encoding. -/
theorem test_encode : encode (.add 3 1 2) = 0x300000CA#32 ∧ encode (.loadi 7 0x1FFFFFF) = 0xDFFFFFFF#32 := by decide
/-- R119, R121: written forms, labels and comments. -/
theorem test_assembler : assembleText ['x', ':', 'l', 'o', 'a', 'd', 'i', ' ', 'r', '3', ',', 'x', ';', '!', '\n',
      'o', 'u', 't', ' ', 'r', '5'] = some [0xD6000000#32, 0xA0000005#32] ∧
    disassemble 0xB0000040#32 = .word 0xB0000040#32 := by decide

/-! ## One step of each instruction -/

/-- Eight registers, 0 but for those listed. -/
def regs : List (RegIx × Word) → Vector Word 8
  | [] => State.reset.regs
  | (i, v) :: rest => (regs rest).set i.toNat v (regIx_lt i)

/-- A running state at pc 0 with the registers listed, the word at offset 0 of segment 0, the further segments and
the free-list. -/
def at0 (w : Word) (xs : List (RegIx × Word)) (segs : List (List Word)) (free : List Nat) : State :=
  { State.reset with regs := regs xs, mem := { segs := ([w] :: segs).map Segment.ofWords, free := free } }

/-- What one step leads to, seen through `f`. -/
def after {α : Type} (s : State) (f : State → α) : Option α :=
  match step s with
  | .next t => some (f t)
  | .fault _ => none
  | .refused _ => none

/-- V-C1. -/
theorem test_cmov_moves : after (at0 0x00000053 [(1, 7), (2, 9), (3, 1)] [] []) (·.reg 1) = some 9 := by decide
/-- V-C2. -/
theorem test_cmov_keeps : after (at0 0x00000053 [(1, 7), (2, 9), (3, 0)] [] []) (·.reg 1) = some 7 := by decide
/-- V-S1. -/
theorem test_sload : after (at0 0x10000154 [(2, 1), (4, 0)] [[42]] []) (·.reg 5) = some 0x2A := by decide
/-- V-S5: use after free. -/
theorem test_sload_freed : after (at0 0x100000D0 [(2, 1), (3, 7)] [[]] [1]) (fun t => (t.status, t.reg 3)) =
    some (.fatal (.segmentAccessFault 1 0), 7) := by decide
/-- V-S6. -/
theorem test_sstore : after (at0 0x200000A3 [(2, 1), (4, 0), (3, 42)] [[0]] []) (·.mem.word 1 0) = some 42 := by decide
/-- V-S8: one register in all three roles; the program is written and stays canonical. -/
theorem test_sstore_program : after (at0 0x20000049 [(1, 0)] [] []) (·.mem) =
    some { segs := [Segment.zeros 1], free := [] } := by decide
/-- V-A2. -/
theorem test_add_wraps : after (at0 0x300000CA [(1, 0xFFFFFFFF), (2, 1)] [] []) (·.reg 3) = some 0 := by decide
/-- V-A3: source and destination the same. -/
theorem test_add_same : after (at0 0x30000049 [(1, 0x15)] [] []) (·.reg 1) = some 0x2A := by decide
/-- V-A7. -/
theorem test_mul_low : after (at0 0x400000CA [(1, 0x12345678), (2, 0x9ABCDEF0)] [] []) (·.reg 3) = some 0x242D2080 := by
  decide
/-- V-A5. -/
theorem test_mul_wraps : after (at0 0x4000015C [(3, 0x80000000), (4, 2)] [] []) (·.reg 5) = some 0 := by decide
/-- V-A14: unsigned. -/
theorem test_div_unsigned : after (at0 0x500000CA [(1, 0x80000000), (2, 3)] [] []) (·.reg 3) = some 0x2AAAAAAA := by decide
/-- V-A11, with the pc advanced and the instruction counted (60_exceptions R207). -/
theorem test_div_zero : after (at0 0x500000C0 [] [] []) (fun t => (t.status, t.pc, t.icount)) =
    some (.fatal .divideByZero, 1, 1) := by decide
/-- V-A15. -/
theorem test_nand : after (at0 0x600000CA [(1, 0xF0F0F0F0), (2, 0xFF00FF00)] [] []) (·.reg 3) = some 0x0FFF0FFF := by decide
/-- V-A16. -/
theorem test_nand_zero : after (at0 0x600001C0 [] [] []) (·.reg 7) = some 0xFFFFFFFF := by decide
/-- V-H2: don't-care bits set. -/
theorem test_halt : after (at0 0x7FFFFFFF [] [] []) (fun t => (t.status, t.pc, t.icount, t.out)) =
    some (.halted, 1, 1, []) := by decide
/-- V-M2: size from the snapshot. -/
theorem test_map_fresh : after (at0 0x80000012 [(2, 3)] [] []) (fun t => (t.reg 2, t.mem.segLen 1, t.mem.count)) =
    some (1, 3, 2) := by decide
/-- V-M4: reuse, new length; V-M6 is among the witnesses. -/
theorem test_map_reuse : after (at0 0x80000035 [(5, 3)] [[], []] [1])
    (fun t => (t.reg 6, t.mem.segLen 1, t.mem.free, t.mem.count)) = some (1, 3, [], 3) := by decide
/-- V-U1. -/
theorem test_unmap : after (at0 0x90000002 [(2, 1)] [[99, 0]] []) (fun t => (t.mem.segLen 1, t.mem.free, t.reg 2)) =
    some (0, [1], 1) := by decide
/-- V-U4: double free. -/
theorem test_unmap_twice : after (at0 0x90000002 [(2, 1)] [[]] [1]) (fun t => (t.status, t.mem.free)) =
    some (.fatal (.invalidUnmap 1), [1]) := by decide
/-- V-IO1. -/
theorem test_out : after (at0 0xA0000001 [(1, 0x141)] [] []) (·.out) = some [0x41] := by decide
/-- V-IO4: 0xFF is not end of stream. -/
theorem test_inp_byte : after { at0 0xB0000001 [] [] [] with input := { bytes := [0xFF], endless := false } }
    (fun t => (t.reg 1, t.inPos)) = some (0xFF, 1) := by decide
/-- V-IO3, after the last byte. -/
theorem test_inp_end : after { at0 0xB0000003 [] [] [] with input := { bytes := [0, 0x41], endless := false }, inPos := 2 }
    (fun t => (t.reg 3, t.inPos)) = some (0xFFFFFFFF, 2) := by decide
/-- V-P2. -/
theorem test_loadp_program : after (at0 0xC0000038 [(7, 1)] [[0x70000000]] [])
    (fun t => (t.pc, t.mem.word 0 0, t.mem.word 1 0)) = some (0, 0x70000000, 0x70000000) := by decide
/-- V-P4. -/
theorem test_loadp_bad : after (at0 0xC0000008 [(1, 9)] [] []) (fun t => (t.status, t.pc)) =
    some (.fatal (.invalidProgramHandle 9), 1) := by decide
/-- V-L2. -/
theorem test_loadi : after (at0 0xDFFFFFFF [] [] []) (·.reg 7) = some 0x01FFFFFF := by decide
/-- V-L4: r0 is writable. -/
theorem test_loadi_r0 : after (at0 0xD0000005 [] [] []) (·.reg 0) = some 5 := by decide
/-- V-F1. -/
theorem test_empty_image : after State.reset (fun t => (t.status, t.pc, t.icount)) =
    some (.fatal (.fetchOutOfRange 0), 0, 0) := by decide
/-- V-F3. -/
theorem test_invalid_first : after (at0 0xE0000000 [] [] []) (fun t => (t.status, t.pc, t.icount)) =
    some (.fatal (.illegalOpcode 0 0xE0000000), 0, 0) := by decide
/-- 70_reset R234, R235: big-endian; a partial word is no image. -/
theorem test_bootImage : bootImage [0xD2, 0x00, 0x00, 0x01] = some [0xD2000001#32] ∧ bootImage [1, 2, 3, 4, 5] = none := by
  decide
/-- The host's two entries: the first instruction after reset is the one placed. -/
theorem test_withFetchWord : after (State.reset.withFetchWord 32 0xD600002A) (·.reg 3) = some 42 ∧
    decodeTableWord 32 0x80000011 = some (.map 0 2 1) ∧ decodeTableWord 32 0xF0000000 = none := by decide

/-! ## Witnesses: the hypotheses of the statements can be met -/

/-- EncodeOfDecodeClearsDontCareBits: an immediate word, a canonical and a non-canonical three-register word. -/
theorem witness_encode_of_decode :
    (decode 0xD600002A#32 = .ok (.loadi 3 42) ∧ opcodeOf 0xD600002A#32 = 13#4) ∧
    (decode 0x300000CA#32 = .ok (.add 3 1 2) ∧ opcodeOf 0x300000CA#32 ≠ 13#4) ∧
    (decode 0x300002CA#32 = .ok (.add 3 1 2) ∧ opcodeOf 0x300002CA#32 ≠ 13#4) := by decide

/-- EachThreeRegisterInstrHasTwoToNineteenWords. -/
theorem witness_three_register : (Instr.add 3 1 2).opcode ≠ 13 := by decide

/-- OnlyOpcodesFourteenAndFifteenAreInvalid, its last clause: the smallest invalid word at the pc. -/
theorem witness_invalid_word : (at0 0xE0000000 [] [] []).status = .running ∧
    (at0 0xE0000000 [] [] []).mem.fetch (at0 0xE0000000 [] [] []).pc = .ok 0xE0000000#32 ∧
    0xE0000000 ≤ (0xE0000000#32).toNat := by decide

/-- DecodeReadsFieldsByPosition: the last word of opcode 12, and the first and the last of opcode 13. -/
theorem witness_formats : (0xCFFFFFFF#32).toNat / 2 ^ 28 ≤ 12 ∧ (0xD0000000#32).toNat / 2 ^ 28 = 13 ∧
    (0xDFFFFFFF#32).toNat / 2 ^ 28 = 13 := by decide

/-- DontCareBitsAndUnusedFieldsAreIgnored: two words that differ in bits 27 and 9. -/
theorem witness_dont_care : opcodeOf 0x380002CA#32 ≠ 13#4 ∧
    0x380002CA#32 &&& 0xF00001FF#32 = 0x300000CA#32 &&& 0xF00001FF#32 := by decide

/-- ConditionalMoveWritesWhenConditionNonZero: both clauses; only bit 31 set is not 0 (V-C3). -/
theorem witness_cmov : (at0 0 [(3, 0x80000000)] [] []).reg 3 ≠ 0#32 ∧ (at0 0 [] [] []).reg 3 = 0#32 := by decide

/-- A state with a live segment of two Words and a free handle. -/
def twoSegments (xs : List (RegIx × Word)) : State := at0 0 xs [[42, 0], []] [2]

theorem witness_twoSegments_wf (xs : List (RegIx × Word)) : (twoSegments xs).mem.wf := by
  show Memory.wf { segs := [[0], [42, 0], []].map Segment.ofWords, free := [2] }
  decide

/-- SegmentedLoadReadsOneWord, SegmentedStoreWritesOneWord: the last valid offset; then offset = length, a free
handle, and handle = count, which are not valid. -/
theorem witness_addresses : ValidAddress (twoSegments []).mem 1 1 ∧ ¬ ValidAddress (twoSegments []).mem 1 2 ∧
    ¬ ValidAddress (twoSegments []).mem 2 0 ∧ ¬ ValidAddress (twoSegments []).mem 3 0 := by
  unfold ValidAddress
  decide

theorem witness_sload : ValidAddress (twoSegments [(1, 1), (2, 1)]).mem ((twoSegments [(1, 1), (2, 1)]).reg 1)
    ((twoSegments [(1, 1), (2, 1)]).reg 2) := by
  unfold ValidAddress
  decide

theorem witness_sstore : (twoSegments [(1, 1), (2, 1)]).mem.wf ∧
    ValidAddress (twoSegments [(1, 1), (2, 1)]).mem ((twoSegments [(1, 1), (2, 1)]).reg 1)
      ((twoSegments [(1, 1), (2, 1)]).reg 2) :=
  ⟨witness_twoSegments_wf _, witness_sload⟩

/-- SegmentedStoreWritesOneWord, its trapping clause: offset 2 of a segment of two Words. -/
theorem witness_sstore_traps : (twoSegments [(1, 1), (2, 2)]).mem.wf ∧
    ¬ ValidAddress (twoSegments [(1, 1), (2, 2)]).mem ((twoSegments [(1, 1), (2, 2)]).reg 1)
      ((twoSegments [(1, 1), (2, 2)]).reg 2) :=
  ⟨witness_twoSegments_wf _, by unfold ValidAddress; decide⟩

/-- DivideIsFloorOrFatalStop, DivideLeavesRemainderBelowDivisor: divisors 1 and 0. -/
theorem witness_div : (at0 0 [(2, 1)] [] []).reg 2 ≠ 0#32 ∧ (at0 0 [] [] []).reg 2 = 0#32 := by decide

/-- HaltEntersHaltedAndKeepsEverythingElse: the last word of the range at the pc. -/
theorem witness_halt : (at0 0x7FFFFFFF [] [] []).status = .running ∧
    (at0 0x7FFFFFFF [] [] []).mem.fetch (at0 0x7FFFFFFF [] [] []).pc = .ok 0x7FFFFFFF#32 ∧
    0x70000000 ≤ (0x7FFFFFFF#32).toNat ∧ (0x7FFFFFFF#32).toNat ≤ 0x7FFFFFFF := by decide

/-- MapAllocatesZeroedSegment: with a free handle. -/
theorem witness_map_reuse : (twoSegments []).mem.wf ∧ ¬ AllocationRefused (twoSegments []) ((twoSegments []).reg 0) ∧
    (twoSegments []).mem.free = 2 :: [] :=
  ⟨witness_twoSegments_wf _, by unfold AllocationRefused; decide, rfl⟩

/-- MapAllocatesZeroedSegment: with none; and refused by `alloc_ok` (V-M6). -/
theorem witness_map_fresh : State.reset.mem.wf ∧ ¬ AllocationRefused State.reset (State.reset.reg 0) ∧
    State.reset.mem.free = [] ∧ AllocationRefused { State.reset with alloc := .never } 0 :=
  ⟨State.reset_mem_wf, by unfold AllocationRefused; decide, rfl, .inl rfl⟩

/-- MapAllocatesZeroedSegment, its refusing clause on a state: V-M6, nothing written. -/
theorem test_map_refused : after { at0 0x80000011 [(1, 1), (2, 7)] [] [] with alloc := .never }
    (fun t => (t.status, t.reg 2, t.mem.count)) = some (.fatal (.allocationFailure 1), 7, 1) := by decide

/-- UnmapEmptiesSegmentAndPushesHandle: handle 1; then 0, a free handle and handle = count. -/
theorem witness_unmap : Unmappable (twoSegments []).mem 1 ∧ ¬ Unmappable (twoSegments []).mem 0 ∧
    ¬ Unmappable (twoSegments []).mem 2 ∧ ¬ Unmappable (twoSegments []).mem 3 := by
  unfold Unmappable
  decide

/-- InputWritesByteOrAllOnes: a byte at the last position of the stream, and its end. -/
theorem witness_inp : InputStream.byte { bytes := [7], endless := false } 0 = some 7 ∧
    InputStream.byte { bytes := [7], endless := false } 1 = none := by decide

/-- LoadProgramCopiesSegmentAndSetsPc: handle 0; a live handle that is not 0; a free handle and handle = count. -/
theorem witness_loadp : (twoSegments []).reg 0 = 0#32 ∧
    ((twoSegments [(1, 1)]).reg 1 ≠ 0#32 ∧ LiveHandle (twoSegments [(1, 1)]).mem ((twoSegments [(1, 1)]).reg 1)) ∧
    ((twoSegments [(1, 2)]).reg 1 ≠ 0#32 ∧ ¬ LiveHandle (twoSegments [(1, 2)]).mem ((twoSegments [(1, 2)]).reg 1)) ∧
    ((twoSegments [(1, 3)]).reg 1 ≠ 0#32 ∧ ¬ LiveHandle (twoSegments [(1, 3)]).mem ((twoSegments [(1, 3)]).reg 1)) := by
  unfold LiveHandle
  decide

/-- StepRunsTheDecodedInstruction, PcIsNextOffsetUnlessLoadProgramSetsIt (its first clause), and the second clause of
StepHasThreeOutcomesByOpcode. -/
theorem witness_step_runs : (at0 0x300000CA [] [] []).status = .running ∧
    (at0 0x300000CA [] [] []).mem.fetch (at0 0x300000CA [] [] []).pc = .ok 0x300000CA#32 ∧
    decode 0x300000CA#32 = .ok (.add 3 1 2) ∧ (at0 0x300000CA [] [] []).fetchInstr = .ok (.add 3 1 2) ∧
    (Instr.add 3 1 2).opcode ∈ [0, 3, 4, 6, 10, 11, 13] ∧ (Instr.add 3 1 2).opcode ≠ 12 ∧
    (after (at0 0x300000CA [] [] []) fun _ => ()).isSome = true := by decide

/-- PcIsNextOffsetUnlessLoadProgramSetsIt, its second clause (V-P1) and its third. -/
theorem witness_pc_set : (at0 0xC0000005 [(5, 4)] [] []).fetchInstr = .ok (.loadp 0 0 5) ∧
    after (at0 0xC0000005 [(5, 4)] [] []) (fun t => (t.status, t.pc)) = some (.running, 4) ∧
    State.reset.fetchInstr = .error (.fetchOutOfRange 0) ∧ (after State.reset fun _ => ()).isSome = true := by decide

/-- FetchReadsSegmentZeroOrStops: pc = length - 1, and pc = length. -/
theorem witness_fetch : (at0 0 [] [] []).pc.toNat < (at0 0 [] [] []).mem.segLen 0 ∧
    (((at0 0 [] [] []).setPc 1).status = .running ∧ ((at0 0 [] [] []).setPc 1).mem.segLen 0 ≤ ((at0 0 [] [] []).setPc 1).pc.toNat) := by
  decide

/-- InvalidWordStopsWithoutAdvancing: opcodes 14 and 15. -/
theorem witness_invalid : ((at0 0xE0000000 [] [] []).status = .running ∧
      (at0 0xE0000000 [] [] []).mem.fetch (at0 0xE0000000 [] [] []).pc = .ok 0xE0000000#32 ∧ 14 ≤ (opcodeOf 0xE0000000#32).toNat) ∧
    14 ≤ (opcodeOf 0xFFFFFFFF#32).toNat := by decide

/-- TerminalStatesAnswerTheirNamedStop. -/
theorem witness_terminal : (State.reset.setStatus .halted).status = .halted ∧
    (State.reset.setStatus (.fatal .divideByZero)).status = .fatal .divideByZero := by decide

/-- DispatchRaisesOnlyTheOpcodesCause, OnlyTheDestinationRegisterIsWritten: a division by 0 in dispatch. -/
theorem witness_raises : (at0 0 [] [] []).status = .running ∧
    exec (.div 1 2 3) (at0 0 [] [] []) = .next ((at0 0 [] [] []).fatalStop .divideByZero) ∧
    ((at0 0 [] [] []).fatalStop .divideByZero).status = .fatal .divideByZero := ⟨rfl, rfl, rfl⟩

/-- FatalStopLeavesNoPartialEffect: a cause of either kind. -/
theorem witness_fatal : after (at0 0xE0000000 [] [] []) (·.status) = some (.fatal (.illegalOpcode 0 0xE0000000)) ∧
    after (at0 0x500000C0 [] [] []) (·.status) = some (.fatal .divideByZero) := by decide

/-- OnlyFourOpcodesChangeMemory, OnlyLoadProgramResizesSegmentZero: an Add, and a store that is no Load program. -/
theorem witness_memory_frames : exec (.add 1 2 3) (twoSegments []) = .next ((twoSegments []).setReg 1 0) ∧
    (Instr.add 1 2 3).opcode ∉ [2, 8, 9, 12] ∧ (twoSegments []).mem.wf ∧
    (∃ t, exec (.sstore 1 2 3) (twoSegments [(1, 1), (2, 1)]) = .next t) ∧ (Instr.sstore 1 2 3).opcode ≠ 12 :=
  ⟨rfl, by decide, witness_twoSegments_wf _, ⟨_, rfl⟩, by decide⟩

/-- CountGrowsOnlyByFreshAllocation, EveryStepKeepsTheInvariant, InstructionCountCountsDecodedSteps: a step that
allocates, from a state that meets the invariant. -/
theorem witness_step_keeps : (at0 0x80000012 [(2, 3)] [] []).Inv ∧
    after (at0 0x80000012 [(2, 3)] [] []) (fun t => (t.status, t.mem.count, t.icount)) = some (.running, 2, 1) ∧
    (at0 0x80000012 [(2, 3)] [] []).fetchInstr = .ok (.map 0 2 2) ∧ (at0 0x80000012 [(2, 3)] [] []).mem.free = [] :=
  ⟨⟨by show Memory.wf { segs := [Segment.ofWords [0x80000012]], free := [] }; decide, fun _ => Nat.zero_le _⟩,
    by decide, by decide, rfl⟩

/-- InstructionCountCountsDecodedSteps, its second clause. -/
theorem witness_not_counted : State.reset.fetchInstr = .error (.fetchOutOfRange 0) ∧
    after State.reset (·.icount) = some 0 := by decide

/-- PcIncrementNeverWraps. -/
theorem witness_pc : (twoSegments []).mem.wf ∧ (twoSegments []).mem.fetch 0 = .ok 0#32 :=
  ⟨witness_twoSegments_wf _, by decide⟩

/-- ReallocationReturnsSameHandleZeroed: map a segment of 5 Words (the free handle 2); unmap handle 1. -/
theorem witness_realloc : (twoSegments []).mem.wf ∧ (∃ m, (twoSegments []).mem.allocate true 5 = .ok (2, m)) ∧
    ∃ m, (twoSegments []).mem.deallocate 1 = .ok m :=
  ⟨witness_twoSegments_wf _, ⟨_, rfl⟩, _, rfl⟩

/-- FreedHandlesReturnLastFreedFirst: a free handle; none, below `MAX_HANDLES`; two unmaps in a row. -/
theorem witness_stack : (twoSegments []).mem.free = 2 :: [] ∧ State.reset.mem.free = [] ∧
    State.reset.mem.count < Config.maxHandles ∧ ∃ m1 m2, (at0 0 [] [[], []] []).mem.deallocate 1 = .ok m1 ∧
      m1.deallocate 2 = .ok m2 :=
  ⟨rfl, rfl, by decide, _, _, rfl, rfl⟩

/-- DeadHandleIsNeverReadOrWritten: a free handle and handle = count in each role. -/
theorem witness_dead : (∀ r : RegIx, ¬ LiveHandle (twoSegments [(r, 2)]).mem ((twoSegments [(r, 2)]).reg r) ∧
      (twoSegments [(r, 2)]).reg r ≠ 0#32) ∧
    ∀ r : RegIx, ¬ LiveHandle (twoSegments [(r, 3)]).mem ((twoSegments [(r, 3)]).reg r) := by
  unfold LiveHandle
  decide

/-- NextFetchSeesStoresAndLoadedPrograms, its second clause: a live handle, with a new pc at the last Word of the
source (register 1) and one at its length (register 2). -/
theorem witness_load_program : (twoSegments [(1, 1), (2, 2)]).mem.wf ∧ (twoSegments [(1, 1), (2, 2)]).reg 1 ≠ 0#32 ∧
    LiveHandle (twoSegments [(1, 1), (2, 2)]).mem ((twoSegments [(1, 1), (2, 2)]).reg 1) ∧
    ((twoSegments [(1, 1), (2, 2)]).reg 1).toNat < (twoSegments [(1, 1), (2, 2)]).mem.segLen 1 ∧
    (twoSegments [(1, 1), (2, 2)]).mem.segLen 1 ≤ ((twoSegments [(1, 1), (2, 2)]).reg 2).toNat := by
  refine ⟨witness_twoSegments_wf _, ?_⟩
  unfold LiveHandle
  decide

/-- NextFetchSeesStoresAndLoadedPrograms, its first clause. -/
theorem witness_store_program : (twoSegments []).mem.wf ∧ (twoSegments []).reg 0 = 0#32 ∧
    ((twoSegments []).reg 1).toNat < (twoSegments []).mem.segLen 0 :=
  ⟨witness_twoSegments_wf _, by decide, by decide⟩

/-- LoadedProgramIsAnIndependentCopy: stores through the source, at the last Word, through another handle, and to
segment 0, at the last Word of the copy. -/
theorem witness_copy : (at0 0 [] [[42, 0], [7]] []).mem.wf ∧ (1#32 : Word) ≠ 0#32 ∧ (2#32 : Word) ≠ 0#32 ∧
    ∃ m1 m2 m3 m4, (at0 0 [] [[42, 0], [7]] []).mem.loadProgram 1 = .ok m1 ∧ m1.store 1 1 7 = .ok m2 ∧
      m1.store 2 0 8 = .ok m3 ∧ m1.store 0 1 7 = .ok m4 := by
  refine ⟨?_, by decide, by decide, _, _, _, _, rfl, rfl, rfl, rfl⟩
  show Memory.wf { segs := [[0], [42, 0], [7]].map Segment.ofWords, free := [] }
  decide

/-- StoreThenLoadReturnsStoredWord: a store of 0, which leaves the listing. -/
theorem witness_store_load : (twoSegments []).mem.wf ∧ ∃ m, (twoSegments []).mem.store 1 0 0 = .ok m ∧
    m.load 1 0 = .ok 0#32 :=
  ⟨witness_twoSegments_wf _, _, rfl, by decide⟩

/-- InByteTakesNextByteOrEndOfStream, EndOfStreamIsPermanent: the last byte, the end, an endless stream, and a step
at the end of the stream. -/
theorem witness_streams : ({ State.reset with input := { bytes := [7], endless := false } } : State).inPos < 1 ∧
    (State.reset.input.endless = false ∧ State.reset.input.bytes.length ≤ State.reset.inPos) ∧
    ({ bytes := [], endless := true } : InputStream).endless = true ∧
    State.reset.input.byte State.reset.inPos = none ∧ (after State.reset fun _ => ()).isSome = true := by decide

/-- OutputOnlyGrowsAndOnlyByOutput: a step that outputs. -/
theorem witness_output : after (at0 0xA0000001 [(1, 0x141)] [] []) (·.out.length) = some 1 := by decide

/-- ResetGivesEveryFieldItsValue, StepIsTakenExactlyWhenRunning (its second clause), InvariantHoldsAfterReset: an
image of one Word. -/
theorem witness_image : [(0x70000000#32 : Word)].length ≤ Config.maxSegLen := by decide

/-- BootImageIsBigEndian: an image of two Words, 4 * 1 + 3 being its last byte. -/
theorem witness_bootImage : bootImage [0, 0, 0, 1, 0x70, 0, 0, 0] = some [1#32, 0x70000000#32] ∧ 4 * 1 + 3 < 8 := by decide

/-- ReachableStatesMeetTheSpecsInvariants: one step of a boot image that halts. -/
theorem witness_reachable : [(0x70000000#32 : Word)].length ≤ Config.maxSegLen ∧
    ∃ t, Host.Core.run Sys2Proof.core 1 (State.boot [0x70000000#32] { bytes := [], endless := false } .always) = .next t :=
  ⟨by decide, _, rfl⟩

/-- WrittenRegisterIsReadByNextInstruction: a Load immediate to register 0, and then an Add that reads it twice. -/
theorem witness_written : (at0 0x30000000 [] [] []).status = .running ∧ destination (.loadi 0 5) = some 0 ∧
    valueWritten (.loadi 0 5) (at0 0x30000000 [] [] []) = some 5 ∧
    exec (.loadi 0 5) (at0 0x30000000 [] [] []) = .next ((at0 0x30000000 [] [] []).setReg 0 5) ∧
    ((at0 0x30000000 [] [] []).setReg 0 5).fetchInstr = .ok (.add 0 0 0) :=
  ⟨rfl, rfl, by decide, rfl, by decide⟩

/-- `valueWritten` where an operation is called, by the vectors' own values: V-S1, V-A14 and V-A11, V-M2, V-C2. -/
theorem test_valueWritten : valueWritten (.sload 5 2 4) (at0 0 [(2, 1), (4, 0)] [[42]] []) = some 0x2A ∧
    valueWritten (.div 3 1 2) (at0 0 [(1, 0x80000000), (2, 3)] [] []) = some 0x2AAAAAAA ∧
    valueWritten (.div 3 0 0) (at0 0 [] [] []) = none ∧ valueWritten (.map 0 2 2) (at0 0 [(2, 3)] [] []) = some 1 ∧
    valueWritten (.cmov 1 2 3) (at0 0 [(1, 7), (2, 9), (3, 0)] [] []) = none := by decide

end Sys2Proof.Tests
end

section
/-! The statements on the machine's state (10_state): the pc, the slot count, the free-list, and the registers
between two instructions. -/

namespace Sys2Proof.Machine

/-! ## The pc (R30) -/

/-- In dispatch only opcode 12 touches the pc. -/
theorem Effect.pc_eq {i : Instr} {s t : State} (h : Effect i s t) (hi : i.opcode ≠ 12) : t.pc = s.pc := by
  cases h with
  | jumps _ h12 => exact absurd h12 hi
  | loads _ _ _ h12 _ => exact absurd h12 hi
  | _ => simp

/-- A Load program that goes through sets the pc to `x[c]`, whether or not it replaces segment 0. -/
theorem exec_loadp_pc {a b c : RegIx} {s t : State} (h : exec (.loadp a b c) s = .next t)
    (ht : t.status = .running) : t.pc = s.reg c := by
  by_cases hb : s.reg b = 0#32
  · rw [exec_loadp_jump a b c s hb] at h
    cases h
    rfl
  · cases hl : s.mem.loadProgram (s.reg b) with
    | ok m =>
      rw [exec_loadp_ok a b c s hb hl] at h
      cases h
      rfl
    | error e =>
      rw [exec_loadp_error a b c s hb hl] at h
      cases h
      simp at ht

/-- Settles O34: a step either stops before the pc is advanced, or runs its instruction on the advanced state, where
only a Load program changes the pc again. -/
theorem pcIsNextOffsetUnlessLoadProgramSetsIt : Obligations.PcIsNextOffsetUnlessLoadProgramSetsIt := by
  intro s t hstep
  obtain ⟨-, ⟨cause, hf, rfl⟩ | ⟨i, hf, hx⟩⟩ := step_next hstep
  · simp [hf]
  · simp only [hf, Except.ok.injEq, reduceCtorEq, false_implies, implies_true, and_true]
    refine ⟨?_, ?_⟩
    · rintro _ rfl hi
      simpa using (exec_effect hx).pc_eq hi
    · rintro a b c rfl ht
      simpa using exec_loadp_pc hx ht

/-! ## The slot count (R38) -/

theorem Memory.store_count {m m' : Memory} {h o v : Word} (hs : m.store h o v = .ok m') : m'.count = m.count := by
  obtain ⟨-, -, -, rfl⟩ := (Memory.store_ok_iff _ _ _ _ _).1 hs
  simp [Memory.count]

theorem Memory.deallocate_count {m m' : Memory} {h : Word} (hd : m.deallocate h = .ok m') : m'.count = m.count := by
  obtain ⟨-, -, -, rfl⟩ := (Memory.deallocate_ok_iff _ _ _).1 hd
  simp [Memory.count]

theorem Memory.loadProgram_count {m m' : Memory} {h : Word} (hl : m.loadProgram h = .ok m') : m'.count = m.count := by
  obtain ⟨-, -, rfl⟩ := (Memory.loadProgram_ok_iff _ _ _).1 hl
  simp [Memory.count]

/-- An allocation reuses a slot, or it finds the free-list empty and adds one below the bound. -/
theorem Memory.allocate_count {m m' : Memory} {ok : Bool} {size : Word} {h : Nat}
    (ha : m.allocate ok size = .ok (h, m')) :
    (m.free ≠ [] ∧ m'.count = m.count) ∨
      (m.free = [] ∧ m.count ≠ Config.maxHandles ∧ m'.count = m.count + 1) := by
  obtain ⟨-, ⟨rest, hf, rfl⟩ | ⟨hf, hc, -, rfl⟩⟩ := (Memory.allocate_ok_iff _ _ _ _ _).1 ha
  · exact .inl ⟨by simp [hf], by simp [Memory.count]⟩
  · exact .inr ⟨hf, hc, by simp [Memory.count]⟩

/-- In dispatch the slot count stays, unless a Map finds the free-list empty and a slot below the bound. -/
theorem Effect.count {i : Instr} {s t : State} (h : Effect i s t) :
    t.mem.count = s.mem.count ∨
      ((∃ a b c, i = .map a b c) ∧ s.mem.free = [] ∧ s.mem.count ≠ Config.maxHandles ∧
        t.mem.count = s.mem.count + 1) := by
  cases h with
  | stores _ _ _ _ _ hm => exact .inl (Memory.store_count hm)
  | unmaps _ _ _ hm => exact .inl (Memory.deallocate_count hm)
  | loads _ _ _ _ hm => exact .inl (Memory.loadProgram_count hm)
  | maps a b c _ _ hi hm =>
    obtain ⟨-, hsame⟩ | ⟨hfree, hmax, hgrow⟩ := Memory.allocate_count hm
    · exact .inl hsame
    · exact .inr ⟨⟨a, b, c, hi⟩, hfree, hmax, hgrow⟩
  | _ => exact .inl (by simp)

/-- A Map that goes through with the free-list empty adds a slot. -/
theorem exec_map_count_of_free_nil {a b c : RegIx} {s t : State} (h : exec (.map a b c) s = .next t)
    (hfree : s.mem.free = []) (ht : t.status = .running) : t.mem.count = s.mem.count + 1 := by
  cases hm : s.mem.allocate (s.allocOk (s.reg c)) (s.reg c) with
  | error e =>
    rw [exec_map_error a b c s hm] at h
    cases h
    simp at ht
  | ok r =>
    rw [exec_map_ok a b c s hm] at h
    cases h
    obtain ⟨hne, -⟩ | ⟨-, -, hgrow⟩ := Memory.allocate_count hm
    · exact absurd hfree hne
    · exact hgrow

/-- A step keeps the slot count, unless it runs a Map that finds the free-list empty and a slot below the bound. -/
theorem step_count {s t : State} (h : step s = .next t) :
    t.mem.count = s.mem.count ∨
      ((∃ a b c, s.fetchInstr = .ok (.map a b c)) ∧ s.mem.free = [] ∧ s.mem.count ≠ Config.maxHandles ∧
        t.mem.count = s.mem.count + 1) := by
  obtain ⟨-, ⟨cause, -, rfl⟩ | ⟨i, hf, hx⟩⟩ := step_next h
  · exact .inl rfl
  · simpa [hf] using (exec_effect hx).count

/-- Settles O37: by the inversion of a step's effect on the slot count; the bound is part of the canonical form. -/
theorem countGrowsOnlyByFreshAllocation : Obligations.CountGrowsOnlyByFreshAllocation := by
  refine ⟨fun _ _ _ => rfl, fun s t hwf hstep => ?_, fun s t a b c hfetch hfree hstep ht => ?_⟩
  · obtain ⟨-, hbound, -⟩ := hwf
    obtain hsame | ⟨hmap, hfree, hmax, hgrow⟩ := step_count hstep
    · exact ⟨hsame.ge, hsame.trans_le hbound, fun hne => absurd hsame hne⟩
    · exact ⟨by omega, by omega, fun _ => ⟨hgrow, hfree, hmap⟩⟩
  · obtain ⟨hrun, -⟩ := step_next hstep
    rw [step_of_fetched hrun hfetch] at hstep
    exact exec_map_count_of_free_nil (s := s.advance) hstep hfree ht

/-! ## A written register in the next instruction (R25, R28) -/

/-- An instruction that writes `v` to register `d` does so last, on a state with the old registers and status. -/
theorem exec_eq_setReg_of_valueWritten {i : Instr} {d : RegIx} {v : Word} {s : State} (hd : destination i = some d)
    (hv : valueWritten i s = some v) :
    ∃ u, exec i s = .next (u.setReg d v) ∧ u.status = s.status ∧ SameRegs s u := by
  cases i with
  | cmov a b c =>
    cases hd
    by_cases hc : s.reg c = 0#32
    · simp [valueWritten, hc] at hv
    · obtain rfl : s.reg b = v := by simpa [valueWritten, hc] using hv
      exact ⟨s, exec_cmov_moves _ _ _ s hc, rfl, fun _ => rfl⟩
  | sload a b c =>
    cases hd
    cases hl : s.mem.load (s.reg b) (s.reg c) with
    | error e => simp [valueWritten, hl, Except.toOption] at hv
    | ok w =>
      obtain rfl : w = v := by simpa [valueWritten, hl, Except.toOption] using hv
      exact ⟨s, exec_sload_ok _ _ _ s hl, rfl, fun _ => rfl⟩
  | div a b c =>
    cases hd
    by_cases hc : s.reg c = 0#32
    · simp [valueWritten, udiv, hc, Except.toOption] at hv
    · obtain rfl : BitVec.ofNat 32 ((s.reg b).toNat / (s.reg c).toNat) = v := by
        simpa only [valueWritten, udiv, if_neg hc, Except.toOption, Option.some.injEq] using hv
      exact ⟨s, exec_div_ok _ _ _ s hc, rfl, fun _ => rfl⟩
  | map a b c =>
    cases hd
    cases hm : s.mem.allocate (s.allocOk (s.reg c)) (s.reg c) with
    | error e => simp [valueWritten, hm, Except.toOption] at hv
    | ok r =>
      obtain rfl : BitVec.ofNat 32 r.1 = v := by
        simpa only [valueWritten, hm, Except.toOption, Option.map_some, Option.some.injEq] using hv
      exact ⟨s.setMem r.2, exec_map_ok _ _ _ s hm, rfl, fun _ => rfl⟩
  | inp a b c =>
    cases hd
    cases hv
    exact ⟨s.inByte.2, exec_inp _ _ _ s, s.inByte_status, s.inByte_reg⟩
  | add | mul | nand | loadi =>
    cases hd
    cases hv
    exact ⟨s, rfl, rfl, fun _ => rfl⟩
  | sstore | halt | unmap | out | loadp => cases hd

/-- An Add that reads register `d` as either operand writes the content of `d` plus its other operand. -/
theorem exec_add_reads {a d e : RegIx} {j : Instr} (r : State) (hj : j = .add a d e ∨ j = .add a e d) :
    ∃ u, exec j r = .next u ∧ u.reg a = r.reg d + r.reg e := by
  obtain rfl | rfl := hj
  · exact ⟨_, exec_add a d e r, State.setReg_reg_self ..⟩
  · exact ⟨_, exec_add a e d r, (State.setReg_reg_self ..).trans (BitVec.add_comm ..)⟩

/-- Settles O57: the write is the last change of the instruction, and advancing the pc keeps the registers. -/
theorem writtenRegisterIsReadByNextInstruction : Obligations.WrittenRegisterIsReadByNextInstruction := by
  intro i d v s hrun hd hv
  obtain ⟨u, hexec, hstatus, hregs⟩ := exec_eq_setReg_of_valueWritten hd hv
  refine ⟨u.setReg d v, hexec, State.setReg_reg_self .., fun j hj => ?_⟩
  have hstep : step (u.setReg d v) = exec j (u.setReg d v).advance := step_of_fetched (hstatus.trans hrun) hj
  refine ⟨(u.setReg d v).advance, hstep, by simp, fun x hx => ?_, fun a e hadd => ?_⟩
  · simpa using (State.setReg_reg_ne u v hx).trans (hregs x)
  · obtain ⟨w, hw, hreg⟩ := exec_add_reads (u.setReg d v).advance hadd
    exact ⟨w, hstep.trans hw, by simpa using hreg⟩

/-! ## The free-list (R41) -/

/-- An allocation that `alloc_ok` allows pops the top of the free-list. -/
theorem Memory.allocate_of_free_cons {m : Memory} {h : Nat} {rest : List Nat} (size : Word) (hf : m.free = h :: rest) :
    ∃ m', m.allocate true size = .ok (h, m') ∧ m'.free = rest :=
  ⟨_, (Memory.allocate_ok_iff _ _ _ _ _).2 ⟨rfl, .inl ⟨rest, hf, rfl⟩⟩, rfl⟩

/-- With the free-list empty and a slot left, an allocation that `alloc_ok` allows adds the slot `count`. -/
theorem Memory.allocate_of_free_nil {m : Memory} (size : Word) (hf : m.free = []) (hc : m.count < Config.maxHandles) :
    ∃ m', m.allocate true size = .ok (m.count, m') ∧ m'.count = m.count + 1 ∧ m'.free = [] :=
  ⟨_, (Memory.allocate_ok_iff _ _ _ _ _).2 ⟨rfl, .inr ⟨hf, hc.ne, rfl, rfl⟩⟩, by simp [Memory.count], hf⟩

/-- A deallocation pushes the handle on the free-list. -/
theorem Memory.deallocate_free {m m' : Memory} {h : Word} (hd : m.deallocate h = .ok m') :
    m'.free = h.toNat :: m.free := by
  obtain ⟨-, -, -, rfl⟩ := (Memory.deallocate_ok_iff _ _ _).1 hd
  rfl

/-- Settles O42: deallocation pushes and allocation pops, so two handles come back last freed first. -/
theorem freedHandlesReturnLastFreedFirst : Obligations.FreedHandlesReturnLastFreedFirst := by
  intro m size size'
  refine ⟨fun h rest hf => Memory.allocate_of_free_cons size hf, Memory.allocate_of_free_nil size,
    fun h1 h2 m1 m2 hd1 hd2 => ?_⟩
  obtain ⟨m3, ha3, hfree3⟩ := Memory.allocate_of_free_cons size (Memory.deallocate_free hd2)
  obtain ⟨m4, ha4, -⟩ := Memory.allocate_of_free_cons size' (hfree3.trans (Memory.deallocate_free hd1))
  exact ⟨m3, m4, ha3, ha4⟩

end Sys2Proof.Machine
end

section
/-! The statements on the segment memory (20_memory): what reads see after each operation, which instructions change
it, and the invariant of 10_state R44. -/

namespace Sys2Proof.Machine

/-! ## A new memory (R62) -/

@[simp] theorem Memory.new_count (ws : List Word) : (Memory.new ws).count = 1 := rfl
@[simp] theorem Memory.new_free (ws : List Word) : (Memory.new ws).free = [] := rfl
@[simp] theorem Memory.new_seg_zero (ws : List Word) : (Memory.new ws).seg 0 = Segment.ofWords ws := rfl

/-- Settles O40: the one segment is `Segment.ofWords ws`, which lists the Words in order. -/
theorem newMemoryHoldsTheWordsInSegmentZero : Obligations.NewMemoryHoldsTheWordsInSegmentZero := by
  intro ws
  refine ⟨Memory.new_count ws, Memory.new_free ws, (Memory.live_iff _ _).2 (by simp),
    by simp [Memory.segLen], fun k hk => ?_⟩
  simp [Memory.word, hk]

/-! ## The invariant (10_state R44) -/

/-- The invariant holds after reset with every boot image within the bound. -/
theorem State.boot_inv {image : List Word} (input : InputStream) (alloc : AllocPolicy)
    (h : image.length ≤ Config.maxSegLen) : (State.boot image input alloc).Inv :=
  ⟨Memory.new_wf h, fun _ => Nat.zero_le _⟩

/-- Settles O54: nothing is consumed yet, and the memory is `Memory.new`, which is canonical. -/
theorem invariantHoldsAfterReset : Obligations.InvariantHoldsAfterReset :=
  ⟨⟨State.reset_mem_wf, fun _ => Nat.zero_le _⟩, fun _ input alloc h => State.boot_inv input alloc h⟩

/-- A stream that ends delivers only the bytes it lists (44_io R183). -/
theorem InputStream.lt_length_of_byte_isSome {inp : InputStream} {i : Nat} (hend : inp.endless = false)
    (h : (inp.byte i).isSome) : i < inp.bytes.length := by
  by_contra hge
  simp [InputStream.byte, List.getElem?_eq_none (not_lt.1 hge), hend] at h

/-- `InByte` consumes no more bytes than a stream that ends has. -/
theorem State.inByte_inv {s : State} (hs : s.Inv) : s.inByte.2.Inv := by
  obtain ⟨hwf, hpos⟩ := hs
  refine ⟨by rwa [s.inByte_mem], fun hend => ?_⟩
  rw [s.inByte_input] at hend ⊢
  rw [s.inByte_inPos]
  split
  case isTrue hsome => exact InputStream.lt_length_of_byte_isSome hend hsome
  case isFalse => exact hpos hend

/-- Dispatch keeps the invariant: the four opcodes that change memory keep it canonical, Input keeps its position
within the stream, and the other instructions change neither. -/
theorem Effect.inv {i : Instr} {s t : State} (h : Effect i s t) (hs : s.Inv) : t.Inv := by
  have hinp := State.inByte_inv hs
  obtain ⟨hwf, hpos⟩ := hs
  cases h with
  | stores _ _ _ _ _ hm => exact ⟨Memory.store_wf hwf hm, hpos⟩
  | maps _ _ _ _ _ _ hm => exact ⟨Memory.allocate_wf hwf hm, hpos⟩
  | unmaps _ _ _ hm => exact ⟨Memory.deallocate_wf hwf hm, hpos⟩
  | loads _ _ _ _ hm => exact ⟨Memory.loadProgram_wf hwf hm, hpos⟩
  | inputs => exact hinp
  | writesRegister | nothing | halts | outputs | jumps | stops => exact ⟨hwf, hpos⟩

/-- A step keeps the invariant. -/
theorem step_inv {s t : State} (hs : s.Inv) (hstep : step s = .next t) : t.Inv := by
  obtain ⟨-, ⟨_, -, rfl⟩ | ⟨i, -, hexec⟩⟩ := step_next hstep
  · exact hs
  · exact (exec_effect hexec).inv (s := s.advance) hs

/-- Settles O55: a fatal stop in fetch or decode changes only the status, and every effect of dispatch keeps the
invariant. -/
theorem everyStepKeepsTheInvariant : Obligations.EveryStepKeepsTheInvariant :=
  fun _ _ => step_inv

/-- A property that every step keeps holds of every state a run reaches. -/
theorem run_keeps {M : Host.Core} {P : M.State → Prop} (hkeep : ∀ s t, P s → M.step s = .next t → P t)
    (n : Nat) {s t : M.State} (hs : P s) (hrun : M.run n s = .next t) : P t := by
  induction n generalizing s with
  | zero =>
    cases hrun
    exact hs
  | succ n ih =>
    rw [Host.Core.run] at hrun
    split at hrun
    case h_1 s' hstep => exact ih (hkeep s s' hs hstep) hrun
    all_goals cases hrun

/-- Where there is no slot there is no Word. -/
theorem Memory.segLen_of_count_le {m : Memory} {h : Nat} (hh : m.count ≤ h) : m.segLen h = 0 := by
  simp [Memory.segLen, Memory.seg, List.getElem?_eq_none hh]

theorem Memory.wf_segLen_le {m : Memory} (hm : m.wf) (h : Nat) : m.segLen h ≤ Config.maxSegLen := by
  rcases lt_or_ge h m.count with hlt | hge
  · exact ((Segment.wf_iff _).1 (Memory.wf_seg hm hlt)).1
  · rw [Memory.segLen_of_count_le hge]
    exact Nat.zero_le _

/-- Settles O56: the invariant holds after reset and every step keeps it, so it holds of every state reached. -/
theorem reachableStatesMeetTheSpecsInvariants : Obligations.ReachableStatesMeetTheSpecsInvariants := by
  intro image input alloc n t himage hrun
  obtain ⟨hwf, -⟩ : t.Inv :=
    run_keeps (M := Sys2Proof.core) (fun _ _ => step_inv) n (State.boot_inv input alloc himage) hrun
  have hlive := Memory.wf_zero_live hwf
  have hlen := Memory.wf_segLen_le hwf
  obtain ⟨hcount, -, -, hnodup, hfree⟩ := hwf
  refine ⟨hcount, hlive, fun h hh => ?_, hnodup, hlen, fun r => (t.reg r).isLt, t.pc.isLt⟩
  obtain ⟨hne, hlt, hempty⟩ := hfree h hh
  exact ⟨hlt, hne, by rw [Memory.segLen, hempty, Segment.zeros_len]⟩

/-! ## Which instructions change memory (R73) -/

/-- In dispatch only a store, a Map, an Unmap and a Load program change the segment memory. -/
theorem Effect.mem_eq {i : Instr} {s t : State} (h : Effect i s t) (hi : i.opcode ∉ [2, 8, 9, 12]) :
    t.mem = s.mem := by
  cases h with
  | stores _ _ _ _ hop => simp [hop] at hi
  | maps _ _ _ _ _ hmap => simp [hmap, Instr.opcode] at hi
  | unmaps _ _ hop => simp [hop] at hi
  | loads _ _ _ hop => simp [hop] at hi
  | writesRegister | nothing | halts | outputs | jumps | stops => rfl
  | inputs => exact s.inByte_mem

/-- Settles O35: by the inversion of dispatch. -/
theorem onlyFourOpcodesChangeMemory : Obligations.OnlyFourOpcodesChangeMemory :=
  fun _ _ _ hexec hi => (exec_effect hexec).mem_eq hi

/-! ## Reads after a store (R68, R83) -/

theorem Memory.store_free {m m' : Memory} {h o v : Word} (hs : m.store h o v = .ok m') : m'.free = m.free := by
  obtain ⟨-, -, -, rfl⟩ := (Memory.store_ok_iff _ _ _ _ _).1 hs
  rfl

/-- A store replaces one Word of the segment in its slot and no other slot. -/
theorem Memory.store_seg {m m' : Memory} {h o v : Word} (hs : m.store h o v = .ok m') (k : Nat) :
    m'.seg k = if k = h.toNat then (m.seg h.toNat).set o.toNat v else m.seg k := by
  obtain ⟨hc, -, -, rfl⟩ := (Memory.store_ok_iff _ _ _ _ _).1 hs
  exact Memory.seg_set hc _ k

theorem Memory.store_segLen {m m' : Memory} {h o v : Word} (hs : m.store h o v = .ok m') (k : Nat) :
    m'.segLen k = m.segLen k := by
  rw [Memory.segLen, Memory.store_seg hs]
  split
  case isTrue hk => rw [Segment.set_len, hk, Memory.segLen]
  case isFalse => rfl

/-- The Word stored is the one read at its address, and every other Word is as before. -/
theorem Memory.store_word {m m' : Memory} {h o v : Word} (hm : m.wf) (hs : m.store h o v = .ok m') (k p : Nat) :
    m'.word k p = if k = h.toNat ∧ p = o.toNat then v else m.word k p := by
  obtain ⟨hc, -⟩ := (Memory.store_ok_iff _ _ _ _ _).1 hs
  rw [Memory.word, Memory.store_seg hs]
  by_cases hk : k = h.toNat
  · simp [hk, Memory.word, Segment.set_get (Memory.wf_seg hm hc)]
  · simp [hk, Memory.word]

theorem Memory.store_word_same {m m' : Memory} {h o v : Word} (hm : m.wf) (hs : m.store h o v = .ok m') :
    m'.word h.toNat o.toNat = v := by
  simp [Memory.store_word hm hs]

/-- A load depends on the slot count, the free-list, and the length and the Word at its address. -/
theorem Memory.load_congr {m m' : Memory} {h o : Word} (hcount : m'.count = m.count) (hfree : m'.free = m.free)
    (hlen : m'.segLen h.toNat = m.segLen h.toNat) (hword : m'.word h.toNat o.toNat = m.word h.toNat o.toNat) :
    m'.load h o = m.load h o := by
  rw [Memory.word, Memory.word] at hword
  rw [Memory.load, Memory.load, hcount, hfree, hlen, hword]

/-- A fetch depends on the length of segment 0 and the Word at its offset. -/
theorem Memory.fetch_congr {m m' : Memory} {p : Word} (hlen : m'.segLen 0 = m.segLen 0)
    (hword : m'.word 0 p.toNat = m.word 0 p.toNat) : m'.fetch p = m.fetch p := by
  rw [Memory.word, Memory.word] at hword
  rw [Memory.fetch, Memory.fetch, hlen, hword]

/-- A load of the address just stored to gives the Word stored. -/
theorem Memory.load_store_same {m m' : Memory} {h o v : Word} (hm : m.wf) (hs : m.store h o v = .ok m') :
    m'.load h o = .ok v := by
  obtain ⟨hc, hf, hl, -⟩ := (Memory.store_ok_iff _ _ _ _ _).1 hs
  refine (Memory.load_ok_iff _ _ _ _).2 ⟨?_, ?_, ?_, ?_⟩
  · rwa [Memory.store_count hs]
  · rwa [Memory.store_free hs]
  · rwa [Memory.store_segLen hs]
  · exact (Memory.store_word_same hm hs).symm

/-- A load of another address answers as before the store. -/
theorem Memory.load_store_ne {m m' : Memory} {h o v h' o' : Word} (hm : m.wf) (hs : m.store h o v = .ok m')
    (hne : (h', o') ≠ (h, o)) : m'.load h' o' = m.load h' o' := by
  refine Memory.load_congr (Memory.store_count hs) (Memory.store_free hs) (Memory.store_segLen hs _) ?_
  rw [Memory.store_word hm hs, if_neg]
  rintro ⟨hh, ho⟩
  exact hne (Prod.ext (BitVec.eq_of_toNat_eq hh) (BitVec.eq_of_toNat_eq ho))

/-- Settles O46: by the two cases of reading after a store. -/
theorem storeThenLoadReturnsStoredWord : Obligations.StoreThenLoadReturnsStoredWord :=
  fun _ _ _ _ _ hm hs => ⟨Memory.load_store_same hm hs, fun _ _ => Memory.load_store_ne hm hs⟩

/-! ## Fetches after a store and after a Load program (R86) -/

/-- A store to segment 0 is seen by the fetch of its offset. -/
theorem Memory.fetch_store_same {m m' : Memory} {o v : Word} (hm : m.wf) (hs : m.store 0#32 o v = .ok m') :
    m'.fetch o = .ok v := by
  obtain ⟨-, -, hl, -⟩ := (Memory.store_ok_iff _ _ _ _ _).1 hs
  refine (Memory.fetch_ok_iff _ _ _).2 ⟨?_, ?_⟩
  · rwa [Memory.store_segLen hs]
  · exact (Memory.store_word_same hm hs).symm

/-- A store leaves the fetch of every other offset as it was. -/
theorem Memory.fetch_store_ne {m m' : Memory} {h o v p : Word} (hm : m.wf) (hs : m.store h o v = .ok m')
    (hp : p ≠ o) : m'.fetch p = m.fetch p := by
  refine Memory.fetch_congr (Memory.store_segLen hs 0) ?_
  rw [Memory.store_word hm hs, if_neg]
  rintro ⟨-, ho⟩
  exact hp (BitVec.eq_of_toNat_eq ho)

/-- A store to a valid address goes through. -/
theorem Memory.store_of_validAddress {m : Memory} {h o : Word} (v : Word) (hv : ValidAddress m h o) :
    ∃ m', m.store h o v = .ok m' := by
  obtain ⟨hc, hf, hl⟩ := hv
  exact ⟨_, (Memory.store_ok_iff _ _ _ _ _).2 ⟨hc, hf, hl, rfl⟩⟩

/-- In canonical memory handle 0 is live, so every offset below its length is a valid address. -/
theorem Memory.wf_validAddress_zero {m : Memory} {o : Word} (hm : m.wf) (ho : o.toNat < m.segLen 0) :
    ValidAddress m 0#32 o := by
  obtain ⟨hc, hf⟩ := (Memory.live_iff m 0).1 (Memory.wf_zero_live hm)
  exact ⟨hc, hf, ho⟩

/-- A Load program of a live handle goes through. -/
theorem Memory.loadProgram_of_liveHandle {m : Memory} {h : Word} (hlive : LiveHandle m h) :
    ∃ m', m.loadProgram h = .ok m' := by
  obtain ⟨hc, hf⟩ := hlive
  exact ⟨_, (Memory.loadProgram_ok_iff _ _ _).2 ⟨hc, hf, rfl⟩⟩

/-- Load program copies its source to slot 0 and changes no other slot (R70). -/
theorem Memory.loadProgram_seg {m m' : Memory} {h : Word} (hl : m.loadProgram h = .ok m') (k : Nat) :
    m'.seg k = if k = 0 then m.seg h.toNat else m.seg k := by
  obtain ⟨hc, -, rfl⟩ := (Memory.loadProgram_ok_iff _ _ _).1 hl
  exact Memory.seg_set (Nat.zero_lt_of_lt hc) _ k

theorem Memory.loadProgram_segLen_zero {m m' : Memory} {h : Word} (hl : m.loadProgram h = .ok m') :
    m'.segLen 0 = m.segLen h.toNat := by
  rw [Memory.segLen, Memory.loadProgram_seg hl, if_pos rfl, Memory.segLen]

theorem Memory.loadProgram_word_zero {m m' : Memory} {h : Word} (hl : m.loadProgram h = .ok m') (p : Nat) :
    m'.word 0 p = m.word h.toNat p := by
  rw [Memory.word, Memory.loadProgram_seg hl, if_pos rfl, Memory.word]

/-- Settles O44: a fetch reads the length and the Words of segment 0, which are those the store or the Load program
leaves there. -/
theorem nextFetchSeesStoresAndLoadedPrograms : Obligations.NextFetchSeesStoresAndLoadedPrograms := by
  intro a b c s hm
  refine ⟨fun ha hb => ?_, fun hb hlive => ?_⟩
  · obtain ⟨m, hs⟩ := Memory.store_of_validAddress (s.reg c) (Memory.wf_validAddress_zero hm hb)
    exact ⟨s.setMem m, exec_sstore_ok a b c s (ha ▸ hs), Memory.fetch_store_same hm hs,
      fun p hp => Memory.fetch_store_ne hm hs hp⟩
  · obtain ⟨m, hl⟩ := Memory.loadProgram_of_liveHandle hlive
    refine ⟨(s.setMem m).setPc (s.reg c), exec_loadp_ok a b c s hb hl, fun hlt => ?_, fun hge => ?_⟩
    · exact (Memory.fetch_ok_iff _ _ _).2
        ⟨(Memory.loadProgram_segLen_zero hl).symm ▸ hlt, (Memory.loadProgram_word_zero hl _).symm⟩
    · exact (Memory.fetch_error_iff _ _ _).2 ⟨(Memory.loadProgram_segLen_zero hl).symm ▸ hge, rfl⟩

/-! ## Allocated segments (R65) -/

/-- In canonical memory the slot an allocation answers holds zeros of the size asked for. -/
theorem Memory.allocate_seg {m m' : Memory} {ok : Bool} {size : Word} {h : Nat} (hm : m.wf)
    (ha : m.allocate ok size = .ok (h, m')) : m'.seg h = Segment.zeros size.toNat := by
  obtain ⟨-, -, -, -, hfree⟩ := hm
  obtain ⟨-, ⟨rest, hf, rfl⟩ | ⟨-, -, rfl, rfl⟩⟩ := (Memory.allocate_ok_iff _ _ _ _ _).1 ha
  · obtain ⟨-, hlt, -⟩ := hfree h (by simp [hf])
    rw [Memory.seg_set hlt, if_pos rfl]
  · exact (Memory.seg_append _ _).trans (if_pos rfl)

/-- An allocated segment has the size asked for and only Words 0. -/
theorem Memory.allocate_zeroed {m m' : Memory} {ok : Bool} {size : Word} {h : Nat} (hm : m.wf)
    (ha : m.allocate ok size = .ok (h, m')) : m'.segLen h = size.toNat ∧ ∀ o, m'.word h o = 0#32 := by
  simp [Memory.segLen, Memory.word, Memory.allocate_seg hm ha]

/-- Settles O41: deallocation keeps memory canonical and pushes the handle, which the next allocation pops and
zeroes. -/
theorem reallocationReturnsSameHandleZeroed : Obligations.ReallocationReturnsSameHandleZeroed := by
  intro m size hm
  refine ⟨fun _ _ _ => Memory.allocate_zeroed hm, fun h m1 hd => ?_⟩
  obtain ⟨m2, ha, hfree⟩ := Memory.allocate_of_free_cons size (Memory.deallocate_free hd)
  obtain ⟨hlen, hzero⟩ := Memory.allocate_zeroed (Memory.deallocate_wf hm hd) ha
  exact ⟨m2, ha, hlen, hzero, hfree⟩

/-! ## Handles that are not live (R63) -/

section NotLive

variable {m : Memory} {h : Word} (hdead : ¬ LiveHandle m h)
include hdead

theorem Memory.load_of_not_live (o : Word) : m.load h o = .error (.segmentAccessFault h o) :=
  (Memory.load_error_iff _ _ _ _).2 ⟨fun ⟨hc, hf, _⟩ => hdead ⟨hc, hf⟩, rfl⟩

theorem Memory.store_of_not_live (o v : Word) : m.store h o v = .error (.segmentAccessFault h o) :=
  (Memory.store_error_iff _ _ _ _ _).2 ⟨fun ⟨hc, hf, _⟩ => hdead ⟨hc, hf⟩, rfl⟩

theorem Memory.deallocate_of_not_live : m.deallocate h = .error (.invalidUnmap h) :=
  (Memory.deallocate_error_iff _ _ _).2 ⟨fun ⟨hc, _, hf⟩ => hdead ⟨hc, hf⟩, rfl⟩

theorem Memory.loadProgram_of_not_live : m.loadProgram h = .error (.invalidProgramHandle h) :=
  (Memory.loadProgram_error_iff _ _ _).2 ⟨hdead, rfl⟩

end NotLive

theorem liveHandle_or_free_or_count_le (m : Memory) (h : Word) :
    LiveHandle m h ∨ h.toNat ∈ m.free ∨ m.count ≤ h.toNat := by
  by_cases hf : h.toNat ∈ m.free
  · exact .inr (.inl hf)
  · rcases lt_or_ge h.toNat m.count with hc | hc
    · exact .inl ⟨hc, hf⟩
    · exact .inr (.inr hc)

/-- Settles O43: the memory operation raises, and its instruction enters the fatal stop with that cause. -/
theorem deadHandleIsNeverReadOrWritten : Obligations.DeadHandleIsNeverReadOrWritten := by
  intro a b c s
  refine ⟨liveHandle_or_free_or_count_le s.mem, fun hdead => ?_, fun hdead => ?_, fun hdead => ?_,
    fun hdead hb => ?_⟩
  · exact exec_sload_error a b c s (Memory.load_of_not_live hdead _)
  · exact exec_sstore_error a b c s (Memory.store_of_not_live hdead _ _)
  · exact exec_unmap_error a b c s (Memory.deallocate_of_not_live hdead)
  · exact exec_loadp_error a b c s hb (Memory.loadProgram_of_not_live hdead)

end Sys2Proof.Machine
end

section
/-! The statements on the encoding (30_encoding): the two formats as equations for `decode` and `encode`, and the
bits of a three-register word that nothing reads. -/

namespace Sys2Proof.Machine

/-! ## The two formats (R103, R104) -/

theorem Instr.exists_loadi_of_opcode {i : Instr} (hi : i.opcode = 13) : ∃ l imm, i = .loadi l imm := by
  cases i with
  | loadi l imm => exact ⟨l, imm, rfl⟩
  | _ => simp [Instr.opcode] at hi

/-- Every instruction but Load immediate has an opcode below 13 and three register fields. -/
theorem exists_threeFields_of_opcode_ne {i : Instr} (hi : i.opcode ≠ 13) :
    ∃ op < 13, ∃ a b c : RegIx, threeFields i = some (op, a.toNat, b.toNat, c.toNat) := by
  cases i with
  | loadi l imm => exact absurd rfl hi
  | _ a b c => exact ⟨_, by decide, a, b, c, rfl⟩

theorem encode_eq_threeWord {i : Instr} {op : Nat} {a b c : RegIx}
    (h : threeFields i = some (op, a.toNat, b.toNat, c.toNat)) : encode i = threeWord op a b c := by
  cases i with
  | loadi l imm => cases h
  | _ =>
    simp only [threeFields, Option.some.injEq, Prod.mk.injEq, BitVec.toNat_inj] at h
    obtain ⟨rfl, rfl, rfl, rfl⟩ := h
    rfl

/-- A word decodes to a three-register instruction exactly when it holds that instruction's opcode and fields. -/
theorem decode_ok_iff_threeFields (w : Word) {i : Instr} (hi : i.opcode ≠ 13) :
    decode w = .ok i ↔
      threeFields i = some ((opcodeOf w).toNat, (fieldA w).toNat, (fieldB w).toNat, (fieldC w).toNat) := by
  constructor
  · intro h
    have hop := decode_opcode h
    unfold decode at h
    split at h <;> cases h
    case h_14 => exact absurd rfl hi
    all_goals simp only [threeFields, hop, Instr.opcode]
  · intro h
    cases i with
    | loadi l imm => cases h
    | _ =>
      simp only [threeFields, Option.some.injEq, Prod.mk.injEq, BitVec.toNat_inj] at h
      obtain ⟨hop, rfl, rfl, rfl⟩ := h
      simp only [decode, ← hop]

/-- A word decodes to a Load immediate exactly when it has opcode 13 and holds its fields. -/
theorem decode_ok_loadi_iff (w : Word) (l : RegIx) (imm : Imm) :
    decode w = .ok (.loadi l imm) ↔ (opcodeOf w).toNat = 13 ∧ fieldL w = l ∧ fieldImm w = imm := by
  constructor
  · intro h
    have hop := decode_opcode h
    simp only [decode, hop, Instr.opcode, Except.ok.injEq, Instr.loadi.injEq] at h
    exact ⟨hop, h⟩
  · rintro ⟨hop, rfl, rfl⟩
    simp only [decode, hop]

/-- Decoding fails for the opcodes 14 and 15 only, with the opcode as the reason (R110). -/
theorem decode_error_iff (w : Word) (e : DecodeError) :
    decode w = .error e ↔ 14 ≤ (opcodeOf w).toNat ∧ e = .illegalOpcode (opcodeOf w) := by
  unfold decode
  split
  case h_15 =>
    have hop : 14 ≤ (opcodeOf w).toNat := by
      simp only [imp_false] at *
      omega
    simp only [hop, true_and, Except.error.injEq, eq_comm]
  all_goals simp_all

theorem decode_fails_iff (w : Word) : (∃ e, decode w = .error e) ↔ 14 ≤ (opcodeOf w).toNat := by
  simp [decode_error_iff]

theorem decode_succeeds_iff (w : Word) : (∃ i, decode w = .ok i) ↔ (opcodeOf w).toNat < 14 := by
  rw [← not_le, ← decode_fails_iff]
  cases decode w <;> simp

/-! ## Decoding an encoded instruction (R113, R114) -/

/-- Settles O1: the fields of the word `encode` makes are those put in, in either format. -/
theorem decodeOfEncodeIsIdentity : Obligations.DecodeOfEncodeIsIdentity := by
  intro i
  by_cases hi : i.opcode = 13
  · obtain ⟨l, imm, rfl⟩ := Instr.exists_loadi_of_opcode hi
    exact (decode_ok_loadi_iff _ l imm).2 (immWord_fields l imm)
  · obtain ⟨op, hop, a, b, c, hf⟩ := exists_threeFields_of_opcode_ne hi
    obtain ⟨hopw, ha, hb, hc⟩ := threeWord_fields (by omega : op < 16) a b c
    rw [decode_ok_iff_threeFields _ hi, encode_eq_threeWord hf, hopw, ha, hb, hc, hf]

/-! ## Encoding a decoded word (R115) -/

/-- The canonical word of a word's own opcode and fields is the word with bits 27 to 9 cleared. -/
theorem threeWord_of_fields (w : Word) :
    threeWord (opcodeOf w).toNat (fieldA w) (fieldB w) (fieldC w) = w &&& 0xF00001FF#32 := by
  apply BitVec.eq_of_toNat_eq
  rw [threeWord_toNat (opcodeOf w).isLt, formatMask_toNat, opcodeOf_toNat, fieldA_toNat, fieldB_toNat, fieldC_toNat]
  omega

theorem immWord_of_fields {w : Word} (hw : (opcodeOf w).toNat = 13) : immWord (fieldL w) (fieldImm w) = w := by
  rw [opcodeOf_toNat] at hw
  apply BitVec.eq_of_toNat_eq
  rw [immWord_toNat, fieldL_toNat, fieldImm_toNat]
  omega

theorem formatMask_eq_self_iff (w : Word) : w &&& 0xF00001FF#32 = w ↔ w.extractLsb' 9 19 = 0#19 := by
  rw [← BitVec.toNat_inj, ← BitVec.toNat_inj, formatMask_toNat, BitVec.extractLsb'_toNat, Nat.shiftRight_eq_div_pow,
    BitVec.toNat_ofNat]
  omega

theorem encode_of_decode_immediate {w : Word} {i : Instr} (h : decode w = .ok i) (hw : (opcodeOf w).toNat = 13) :
    encode i = w := by
  obtain ⟨l, imm, rfl⟩ := Instr.exists_loadi_of_opcode ((decode_opcode h).symm.trans hw)
  obtain ⟨-, rfl, rfl⟩ := (decode_ok_loadi_iff w l imm).1 h
  exact immWord_of_fields hw

theorem encode_of_decode_three {w : Word} {i : Instr} (h : decode w = .ok i) (hi : i.opcode ≠ 13) :
    encode i = w &&& 0xF00001FF#32 :=
  (encode_eq_threeWord ((decode_ok_iff_threeFields w hi).1 h)).trans (threeWord_of_fields w)

theorem opcodeOf_eq_thirteen_iff (w : Word) : opcodeOf w = 13#4 ↔ (opcodeOf w).toNat = 13 :=
  BitVec.toNat_inj.symm

/-- Settles O2: by the format of the word; clearing bits 27 to 9 changes nothing exactly when they are 0. -/
theorem encodeOfDecodeClearsDontCareBits : Obligations.EncodeOfDecodeClearsDontCareBits := by
  intro w i h
  rw [ne_eq, opcodeOf_eq_thirteen_iff]
  refine ⟨encode_of_decode_immediate h, fun hw => ?_⟩
  have henc := encode_of_decode_three h (decode_opcode h ▸ hw)
  exact ⟨henc, henc ▸ formatMask_eq_self_iff w⟩

/-! ## The bits that nothing reads (R105, R108) -/

theorem opcodeOf_formatMask (w : Word) : opcodeOf (w &&& 0xF00001FF#32) = opcodeOf w := by
  rw [← BitVec.toNat_inj, ← threeWord_of_fields]
  exact (threeWord_fields (opcodeOf w).isLt _ _ _).1

/-- Bits 27 to 9 of a word of another opcode than 13 do not affect decoding. -/
theorem decode_formatMask {w : Word} (hw : (opcodeOf w).toNat ≠ 13) : decode (w &&& 0xF00001FF#32) = decode w := by
  obtain ⟨-, ha, hb, hc⟩ := threeWord_fields (opcodeOf w).isLt (fieldA w) (fieldB w) (fieldC w)
  rw [threeWord_of_fields] at ha hb hc
  cases hd : decode w with
  | error e => rw [decode_error_iff, opcodeOf_formatMask, ← decode_error_iff, hd]
  | ok i =>
    have hi : i.opcode ≠ 13 := decode_opcode hd ▸ hw
    rw [decode_ok_iff_threeFields _ hi, opcodeOf_formatMask, ha, hb, hc, ← decode_ok_iff_threeFields _ hi, hd]

/-- Settles O7: both words decode as the word with bits 27 to 9 cleared; and the meanings named do not mention the
fields their operation leaves unused. -/
theorem dontCareBitsAndUnusedFieldsAreIgnored : Obligations.DontCareBitsAndUnusedFieldsAreIgnored := by
  refine ⟨fun w w' hw hmask => ?_, fun a b c s => ⟨rfl, rfl, rfl, rfl, rfl, rfl⟩⟩
  have hop : opcodeOf w' = opcodeOf w := by rw [← opcodeOf_formatMask w', ← hmask, opcodeOf_formatMask]
  have hw' : opcodeOf w' ≠ 13#4 := hop ▸ hw
  rw [ne_eq, opcodeOf_eq_thirteen_iff] at hw hw'
  rw [← decode_formatMask hw, hmask, decode_formatMask hw']

/-- The words of a three-register instruction are those that agree with its encoding outside bits 27 to 9. -/
theorem decode_ok_iff_formatMask (w : Word) {i : Instr} (hi : i.opcode ≠ 13) :
    decode w = .ok i ↔ w &&& 0xF00001FF#32 = encode i := by
  refine ⟨fun h => (encode_of_decode_three h hi).symm, fun h => ?_⟩
  have hdec := decodeOfEncodeIsIdentity i
  have hop := decode_opcode hdec
  rw [← h, opcodeOf_formatMask] at hop
  rw [← decode_formatMask (hop ▸ hi), h, hdec]

/-- The word `w` with `x` in its bits 27 to 9. -/
def withDontCare (w : Word) (x : BitVec 19) : Word :=
  BitVec.ofNat 32 (w.toNat / 2 ^ 28 * 2 ^ 28 + x.toNat * 2 ^ 9 + w.toNat % 2 ^ 9)

theorem withDontCare_toNat (w : Word) (x : BitVec 19) :
    (withDontCare w x).toNat = w.toNat / 2 ^ 28 * 2 ^ 28 + x.toNat * 2 ^ 9 + w.toNat % 2 ^ 9 := by
  have := w.isLt
  have := x.isLt
  rw [withDontCare, BitVec.toNat_ofNat]
  omega

theorem withDontCare_injective (w : Word) : Function.Injective (withDontCare w) := by
  intro x y h
  have h := congrArg BitVec.toNat h
  rw [withDontCare_toNat, withDontCare_toNat] at h
  exact BitVec.eq_of_toNat_eq (by omega)

theorem withDontCare_formatMask (w : Word) (x : BitVec 19) :
    withDontCare w x &&& 0xF00001FF#32 = w &&& 0xF00001FF#32 := by
  have := x.isLt
  apply BitVec.eq_of_toNat_eq
  rw [formatMask_toNat, formatMask_toNat, withDontCare_toNat]
  omega

theorem withDontCare_extract (w : Word) :
    withDontCare (w &&& 0xF00001FF#32) (w.extractLsb' 9 19) = w := by
  have := w.isLt
  apply BitVec.eq_of_toNat_eq
  rw [withDontCare_toNat, formatMask_toNat, BitVec.extractLsb'_toNat, Nat.shiftRight_eq_div_pow]
  omega

/-- Settles O3: the words that decode to the instruction are its encoding with any 19 bits in bits 27 to 9. -/
theorem eachThreeRegisterInstrHasTwoToNineteenWords : Obligations.EachThreeRegisterInstrHasTwoToNineteenWords := by
  intro i hi
  refine ⟨withDontCare (encode i), withDontCare_injective _, fun w => ?_⟩
  rw [decode_ok_iff_formatMask w hi]
  constructor
  · intro h
    exact ⟨w.extractLsb' 9 19, h ▸ withDontCare_extract w⟩
  · rintro ⟨x, rfl⟩
    rw [withDontCare_formatMask]
    exact (encode_of_decode_three (decodeOfEncodeIsIdentity i) hi).symm

/-! ## Invalid words (R106, R110) -/

theorem extract_top_three_eq_seven_iff (w : Word) : w.extractLsb' 29 3 = 7#3 ↔ 14 ≤ (opcodeOf w).toNat := by
  have := w.isLt
  rw [← BitVec.toNat_inj, BitVec.extractLsb'_toNat, Nat.shiftRight_eq_div_pow, BitVec.toNat_ofNat, opcodeOf_toNat]
  omega

/-- Executing an invalid word is a fatal stop that records the pc and the word (R133, R203). -/
theorem step_of_invalid_word {s : State} {w : Word} (hrun : s.status = .running) (hw : s.mem.fetch s.pc = .ok w)
    (hop : 14 ≤ (opcodeOf w).toNat) : step s = .next (s.fatalStop (.illegalOpcode s.pc w)) := by
  obtain ⟨e, he⟩ := (decode_fails_iff w).2 hop
  exact step_of_fetch_error hrun ((s.fetchInstr_error_iff _).2 (.inr ⟨w, e, hw, he, rfl⟩))

/-- Settles O4: the three descriptions of an invalid word all say that its opcode is 14 or 15. -/
theorem onlyOpcodesFourteenAndFifteenAreInvalid : Obligations.OnlyOpcodesFourteenAndFifteenAreInvalid := by
  have hrange (w : Word) : 14 ≤ (opcodeOf w).toNat ↔ 0xE0000000 ≤ w.toNat := by
    rw [opcodeOf_toNat]
    omega
  exact ⟨fun w => (decode_fails_iff w).trans (hrange w),
    fun w => (decode_fails_iff w).trans (extract_top_three_eq_seven_iff w).symm,
    fun s w hrun hw hge => ⟨_, step_of_invalid_word hrun hw ((hrange w).2 hge), rfl⟩⟩

theorem validWord_iff (w : Word) : validWord w = true ↔ (opcodeOf w).toNat < 14 := by
  have := w.isLt
  rw [← not_iff_not, Bool.not_eq_true, not_lt, opcodeOf_toNat]
  simp only [validWord, BitVec.getLsbD, Nat.testBit_eq_decide_div_mod_eq, Bool.not_eq_false', Bool.and_eq_true,
    decide_eq_true_eq]
  omega

theorem immediateWord_iff (w : Word) : immediateWord w = true ↔ (opcodeOf w).toNat = 13 := by
  rw [← opcodeOf_eq_thirteen_iff]
  exact beq_iff_eq

theorem validWord_encode (i : Instr) : validWord (encode i) = true :=
  (validWord_iff _).2 ((decode_succeeds_iff _).1 ⟨i, decodeOfEncodeIsIdentity i⟩)

/-- The encoder leaves no bit set in bits 27 to 9 of the three-register format. -/
theorem canonicalWord_encode (i : Instr) : canonicalWord (encode i) = true := by
  have hdec := decodeOfEncodeIsIdentity i
  simp only [canonicalWord, validWord_encode, Bool.true_and, Bool.or_eq_true, beq_iff_eq]
  by_cases hi : i.opcode = 13
  · exact .inl ((immediateWord_iff _).2 ((decode_opcode hdec).trans hi))
  · exact .inr ((formatMask_eq_self_iff _).1 (encode_of_decode_three hdec hi).symm)

/-- Settles O5: `valid` says that the opcode is below 14 and `is_imm` that it is 13. -/
theorem validAndImmediateOutputsDescribeDecode : Obligations.ValidAndImmediateOutputsDescribeDecode :=
  ⟨fun w => (decode_succeeds_iff w).trans (validWord_iff w).symm,
    fun w => by simp [decode_ok_loadi_iff, immediateWord_iff],
    fun i => ⟨validWord_encode i, canonicalWord_encode i⟩⟩

/-! ## The positions of the fields (R102, R103, R104) -/

/-- Settles O6: a word of opcode 0 to 13 decodes, and the two equations for `decode` give the fields. -/
theorem decodeReadsFieldsByPosition : Obligations.DecodeReadsFieldsByPosition := by
  intro w
  rw [← opcodeOf_toNat]
  refine ⟨fun hle => ?_, fun heq => ?_⟩
  · obtain ⟨i, h⟩ := (decode_succeeds_iff w).2 (by omega)
    have hf := (decode_ok_iff_threeFields w (by rw [← decode_opcode h]; omega)).1 h
    rw [fieldA_toNat, fieldB_toNat, fieldC_toNat] at hf
    exact ⟨i, h, hf⟩
  · exact ⟨fieldL w, fieldImm w, (decode_ok_loadi_iff w _ _).2 ⟨heq, rfl, rfl⟩, fieldL_toNat w, fieldImm_toNat w⟩

end Sys2Proof.Machine
end

section
/-! The statements on the step and on dispatch (40_step_and_dispatch): the fetch, the outcomes of a step by opcode,
and what a fatal stop and an instruction leave unchanged. -/

namespace Sys2Proof.Machine

/-! ## Fetch and decode (R130 to R134) -/

theorem Memory.fetch_of_lt {m : Memory} {p : Word} (hp : p.toNat < m.segLen 0) : m.fetch p = .ok (m.word 0 p.toNat) :=
  (Memory.fetch_ok_iff _ _ _).2 ⟨hp, rfl⟩

theorem Memory.fetch_of_segLen_le {m : Memory} {p : Word} (hp : m.segLen 0 ≤ p.toNat) :
    m.fetch p = .error (.fetchOutOfRange p) :=
  (Memory.fetch_error_iff _ _ _).2 ⟨hp, rfl⟩

/-- Settles O26: a fetch beyond segment 0 fails, and a failing fetch changes only the status. -/
theorem fetchReadsSegmentZeroOrStops : Obligations.FetchReadsSegmentZeroOrStops :=
  fun s => ⟨Memory.fetch_of_lt, fun hrun hpc =>
    step_of_fetch_error hrun ((s.fetchInstr_error_iff _).2 (.inl (Memory.fetch_of_segLen_le hpc)))⟩

/-- R32: the pc advances modulo 2^32. -/
theorem State.advance_pc_toNat (s : State) : s.advance.pc.toNat = (s.pc.toNat + 1) % 2 ^ 32 :=
  BitVec.toNat_add ..

/-- Settles O25: the state at dispatch is `s.advance`. -/
theorem stepRunsTheDecodedInstruction : Obligations.StepRunsTheDecodedInstruction :=
  fun s w i hrun hfetch hdecode =>
    ⟨s.advance, step_of_fetched hrun ((s.fetchInstr_ok_iff i).2 ⟨w, hfetch, hdecode⟩), s.advance_pc_toNat, rfl,
      fun _ => rfl, rfl, rfl, rfl, rfl, rfl, rfl⟩

/-- Settles O27: opcodes 14 and 15 do not decode, and a failing decode changes only the status. -/
theorem invalidWordStopsWithoutAdvancing : Obligations.InvalidWordStopsWithoutAdvancing :=
  fun _ _ => step_of_invalid_word

/-! ## When a step is taken (R131) -/

theorem step_answers_next {s : State} (hrun : s.status = .running) : ∃ t, step s = .next t := by
  cases hf : s.fetchInstr with
  | error c => exact ⟨_, step_of_fetch_error hrun hf⟩
  | ok i =>
    rw [step_of_fetched hrun hf]
    exact exec_answers_next i s.advance

theorem step_answers_next_iff (s : State) : (∃ t, step s = .next t) ↔ s.status = .running :=
  ⟨fun ⟨_, hstep⟩ => (step_next hstep).1, step_answers_next⟩

/-- Settles O28: a running step answers by its fetch or by dispatch, and the boot state runs. -/
theorem stepIsTakenExactlyWhenRunning : Obligations.StepIsTakenExactlyWhenRunning :=
  ⟨step_answers_next_iff, fun _ _ _ _ himage => ⟨_, if_pos himage, rfl⟩⟩

/-! ## The causes by opcode (R136, R201) -/

/-- The opcodes with an entry in the "Can raise" column. -/
theorem opcode_mem_of_raisable {i : Instr} {n : Nat} (h : raisable i = some n) : i.opcode ∈ [1, 2, 5, 8, 9, 12] := by
  cases i with
  | sload | sstore | div | map | unmap | loadp => simp [Instr.opcode]
  | cmov | add | mul | nand | halt | out | inp | loadi => cases h

/-- The causes raised in dispatch are those with codes 3 to 7; codes 1 and 2 belong to fetch and decode. -/
theorem code_bounds_of_raisable {i : Instr} {n : Nat} (h : raisable i = some n) : 3 ≤ n ∧ n ≤ 7 := by
  cases i with
  | sload | sstore | div | map | unmap | loadp =>
    cases h
    decide
  | cmov | add | mul | nand | halt | out | inp | loadi => cases h

theorem fetchInstr_error_code_le {s : State} {c : FatalCause} (h : s.fetchInstr = .error c) : c.code ≤ 2 := by
  obtain hfetch | ⟨w, e, -, -, rfl⟩ := (s.fetchInstr_error_iff c).1 h
  · obtain ⟨-, rfl⟩ := (Memory.fetch_error_iff _ _ _).1 hfetch
    simp [FatalCause.code]
  · simp [FatalCause.code]

/-! ## The outcomes of dispatch and of a step (R137, R139, R207) -/

/-- The run status after dispatch: only a Halt and a raise change it, and a raise changes nothing else. -/
theorem Effect.status_cases {i : Instr} {s t : State} (h : Effect i s t) :
    t.status = s.status ∨ (t.status = .halted ∧ ∃ a b c, i = .halt a b c) ∨
      ∃ c, raisable i = some c.code ∧ t = s.fatalStop c := by
  cases h with
  | halts a b c hi => exact .inr (.inl ⟨rfl, a, b, c, hi⟩)
  | stops c hc => exact .inr (.inr ⟨c, hc, rfl⟩)
  | inputs => exact .inl s.inByte_status
  | writesRegister | nothing | stores | maps | unmaps | outputs | jumps | loads => exact .inl rfl

/-- A fatal stop in dispatch is `fatalStop` with a cause the instruction can raise. -/
theorem Effect.eq_fatalStop {i : Instr} {s t : State} {c : FatalCause} (h : Effect i s t) (hrun : s.status = .running)
    (ht : t.status = .fatal c) : raisable i = some c.code ∧ t = s.fatalStop c := by
  obtain hsame | ⟨hhalt, -⟩ | ⟨c', hraise, rfl⟩ := h.status_cases
  · simp [hsame, hrun] at ht
  · simp [hhalt] at ht
  · cases ht
    exact ⟨hraise, rfl⟩

/-- Settles O31: the inversion of dispatch gives every raise together with its entry in the table. -/
theorem dispatchRaisesOnlyTheOpcodesCause : Obligations.DispatchRaisesOnlyTheOpcodesCause :=
  fun _ _ _ _ hrun hexec ht => ((exec_effect hexec).eq_fatalStop hrun ht).1

/-- Settles O32: a stop in fetch or decode is `fatalStop` on the state itself, a stop in dispatch is `fatalStop` on the
advanced state. -/
theorem fatalStopLeavesNoPartialEffect : Obligations.FatalStopLeavesNoPartialEffect := by
  intro s t c hstep ht
  obtain ⟨hrun, ⟨c', hfetch, rfl⟩ | ⟨i, -, hexec⟩⟩ := step_next hstep
  · cases ht
    exact .inl ⟨fetchInstr_error_code_le hfetch, rfl⟩
  · obtain ⟨hraise, rfl⟩ := (exec_effect hexec).eq_fatalStop (s := s.advance) hrun ht
    obtain ⟨hlow, hhigh⟩ := code_bounds_of_raisable hraise
    exact .inr ⟨hlow, hhigh, rfl⟩

/-- Settles O30: by the fetch, and after it by what dispatch does to the status; the opcodes of the second part neither
halt nor raise. -/
theorem stepHasThreeOutcomesByOpcode : Obligations.StepHasThreeOutcomesByOpcode := by
  refine ⟨fun s hrun => ?_, fun s i hrun hfetch hop => ?_⟩
  · obtain ⟨t, hstep⟩ := step_answers_next hrun
    refine ⟨t, hstep, ?_⟩
    obtain ⟨-, ⟨c, hfetch, rfl⟩ | ⟨i, hfetch, hexec⟩⟩ := step_next hstep
    · exact .inr (.inr ⟨c, rfl, .inl hfetch⟩)
    · obtain hsame | ⟨hhalt, a, b, c, rfl⟩ | ⟨c, hraise, rfl⟩ := (exec_effect hexec).status_cases
      · exact .inl (hsame.trans hrun)
      · exact .inr (.inl ⟨hhalt, a, b, c, hfetch⟩)
      · exact .inr (.inr ⟨c, rfl, .inr ⟨i, hfetch, opcode_mem_of_raisable hraise⟩⟩)
  · obtain ⟨t, hexec⟩ := exec_answers_next i s.advance
    refine ⟨t, (step_of_fetched hrun hfetch).trans hexec, ?_⟩
    obtain hsame | ⟨-, a, b, c, rfl⟩ | ⟨c, hraise, -⟩ := (exec_effect hexec).status_cases
    · exact hsame.trans hrun
    · simp [Instr.opcode] at hop
    · have hdisjoint : [1, 2, 5, 8, 9, 12].Disjoint [0, 3, 4, 6, 10, 11, 13] := by simp
      exact (hdisjoint (opcode_mem_of_raisable hraise) hop).elim

/-- Dispatch leaves every register but the destination as it was. -/
theorem Effect.reg_of_ne_destination {i : Instr} {s t : State} {r : RegIx} (h : Effect i s t)
    (hr : destination i ≠ some r) : t.reg r = s.reg r := by
  have hne {d : RegIx} (hd : destination i = some d) : r ≠ d := fun hrd => hr (hrd ▸ hd)
  cases h with
  | writesRegister d v hd => exact State.setReg_reg_ne s v (hne hd)
  | maps a b c h m hi => exact State.setReg_reg_ne (s.setMem m) _ (hne (hi ▸ rfl))
  | inputs a b c hi => exact (State.setReg_reg_ne s.inByte.2 _ (hne (hi ▸ rfl))).trans (s.inByte_reg r)
  | nothing | stores | halts | unmaps | outputs | jumps | loads | stops => rfl

/-- Settles O33: by the inversion of dispatch; a fatal stop keeps the registers. -/
theorem onlyTheDestinationRegisterIsWritten : Obligations.OnlyTheDestinationRegisterIsWritten := by
  intro i s t hrun hexec
  refine ⟨fun r => (exec_effect hexec).reg_of_ne_destination, ?_⟩
  rintro ⟨c, ht⟩ r
  obtain ⟨-, rfl⟩ := (exec_effect hexec).eq_fatalStop hrun ht
  exact s.fatalStop_reg c r

end Sys2Proof.Machine
end

section
/-! The statements on Conditional move, Segmented load and Segmented store (41_cmov_and_segment_access), after what
statements on other instructions share with them: the words of a three-register instruction as numbers, the frames of
a register write and of a memory update, and the operations at a valid and at an invalid address. -/

namespace Sys2Proof.Machine

/-! ## The words of an instruction (R103, R105, R109) -/

/-- The words with a given opcode, a given value below bit `k`, and anything in bits 27 to `k`. -/
theorem anyHigh_iff {k low : Nat} (hk : k ≤ 28) (hlow : low < 2 ^ k) (op : Nat) (w : Word) :
    AnyHigh k (op * 2 ^ 28) low w ↔ (opcodeOf w).toNat = op ∧ w.toNat % 2 ^ k = low := by
  have hsplit : 2 ^ 28 = 2 ^ k * 2 ^ (28 - k) := by rw [← pow_add, Nat.add_sub_cancel' hk]
  rw [AnyHigh, opcodeOf_toNat, hsplit, ← Nat.div_div_eq_div_mul]
  constructor
  · rintro ⟨x, hx, hw⟩
    have hw : w.toNat = low + 2 ^ k * (x + 2 ^ (28 - k) * op) := by rw [hw]; ring
    rw [hw, Nat.add_mul_mod_self_left, Nat.mod_eq_of_lt hlow, Nat.add_mul_div_left _ _ (Nat.two_pow_pos k),
      Nat.div_eq_of_lt hlow, zero_add, Nat.add_mul_div_left _ _ (Nat.two_pow_pos _), Nat.div_eq_of_lt hx]
    exact ⟨zero_add op, rfl⟩
  · rintro ⟨hop, rfl⟩
    refine ⟨w.toNat / 2 ^ k % 2 ^ (28 - k), Nat.mod_lt _ (Nat.two_pow_pos _), ?_⟩
    calc w.toNat
        = 2 ^ k * (2 ^ (28 - k) * op + w.toNat / 2 ^ k % 2 ^ (28 - k)) + w.toNat % 2 ^ k := by
          rw [← hop, Nat.div_add_mod, Nat.div_add_mod]
      _ = _ := by ring

/-- The low nine bits of a word are given register numbers exactly when its three fields are those registers. -/
theorem low_nine_eq_iff (w : Word) (a b c : RegIx) :
    w.toNat % 2 ^ 9 = a.toNat * 64 + b.toNat * 8 + c.toNat ↔ fieldA w = a ∧ fieldB w = b ∧ fieldC w = c := by
  have := a.isLt
  have := b.isLt
  have := c.isLt
  obtain ⟨ha, hb, hc⟩ := fields_eq_iff w a b c
  rw [ha, hb, hc]
  omega

/-- The words of a three-register instruction: its opcode, its registers in the low nine bits, and anything between. -/
theorem decode_ok_iff_anyHigh {i : Instr} {op : Nat} {a b c : RegIx}
    (hi : threeFields i = some (op, a.toNat, b.toNat, c.toNat)) (w : Word) :
    decode w = .ok i ↔ AnyHigh 9 (op * 2 ^ 28) (a.toNat * 64 + b.toNat * 8 + c.toNat) w := by
  have hne : i.opcode ≠ 13 := by
    intro h
    obtain ⟨l, imm, rfl⟩ := Instr.exists_loadi_of_opcode h
    cases hi
  have := a.isLt
  have := b.isLt
  have := c.isLt
  rw [anyHigh_iff (by omega) (by omega), low_nine_eq_iff, decode_ok_iff_threeFields w hne, hi]
  simp only [Option.some.injEq, Prod.mk.injEq, BitVec.toNat_inj, eq_comm]

/-! ## Frames -/

theorem RegisterFrame.refl (d : RegIx) (s : State) : RegisterFrame d s s :=
  ⟨fun _ _ => rfl, rfl, rfl, rfl, rfl, rfl, rfl, rfl, rfl⟩

theorem State.setReg_frame (s : State) (d : RegIx) (v : Word) : RegisterFrame d s (s.setReg d v) :=
  ⟨fun _ => s.setReg_reg_ne v, rfl, rfl, rfl, rfl, rfl, rfl, rfl, rfl⟩

theorem State.setMem_frame (s : State) (m : Memory) : MemoryFrame s (s.setMem m) :=
  ⟨fun _ => rfl, rfl, rfl, rfl, rfl, rfl, rfl, rfl⟩

/-! ## Addresses (R61, R67, R68) -/

theorem Memory.load_of_validAddress {m : Memory} {h o : Word} (hv : ValidAddress m h o) :
    m.load h o = .ok (m.word h.toNat o.toNat) := by
  obtain ⟨hc, hf, hl⟩ := hv
  exact (Memory.load_ok_iff _ _ _ _).2 ⟨hc, hf, hl, rfl⟩

theorem Memory.load_of_not_validAddress {m : Memory} {h o : Word} (hv : ¬ ValidAddress m h o) :
    m.load h o = .error (.segmentAccessFault h o) :=
  (Memory.load_error_iff _ _ _ _).2 ⟨hv, rfl⟩

theorem Memory.store_of_not_validAddress {m : Memory} {h o : Word} (v : Word) (hv : ¬ ValidAddress m h o) :
    m.store h o v = .error (.segmentAccessFault h o) :=
  (Memory.store_error_iff _ _ _ _ _).2 ⟨hv, rfl⟩

theorem Memory.store_word_ne {m m' : Memory} {h o v : Word} (hm : m.wf) (hs : m.store h o v = .ok m') {k p : Nat}
    (hne : (k, p) ≠ (h.toNat, o.toNat)) : m'.word k p = m.word k p := by
  rw [Memory.store_word hm hs, if_neg]
  rintro ⟨rfl, rfl⟩
  exact hne rfl

/-! ## The three instructions (R150, R151, R152) -/

/-- Settles O10: a register write where the condition register is not 0, and the same state where it is. -/
theorem conditionalMoveWritesWhenConditionNonZero : Obligations.ConditionalMoveWritesWhenConditionNonZero := by
  intro a b c s
  refine ⟨decode_ok_iff_anyHigh (op := 0) rfl, ?_⟩
  by_cases hc : s.reg c = 0#32
  · exact ⟨s, exec_cmov_keeps a b c s hc, .refl a s, fun hne => absurd hc hne, fun _ => rfl⟩
  · exact ⟨s.setReg a (s.reg b), exec_cmov_moves a b c s hc, s.setReg_frame a _,
      fun _ => s.setReg_reg_self a _, fun h0 => absurd h0 hc⟩

/-- Settles O11: the load answers the Word at a valid address and raises at any other. -/
theorem segmentedLoadReadsOneWord : Obligations.SegmentedLoadReadsOneWord := by
  intro a b c s
  refine ⟨decode_ok_iff_anyHigh (op := 1) rfl, fun hv => ?_, fun hv => ?_⟩
  · exact ⟨_, exec_sload_ok a b c s (Memory.load_of_validAddress hv), s.setReg_frame a _, s.setReg_reg_self a _⟩
  · exact exec_sload_error a b c s (Memory.load_of_not_validAddress hv)

/-- Settles O12: the store goes through at a valid address, where the facts about a store say what it changes, and
raises at any other. -/
theorem segmentedStoreWritesOneWord : Obligations.SegmentedStoreWritesOneWord := by
  intro a b c s hm
  refine ⟨decode_ok_iff_anyHigh (op := 2) rfl, fun hv => ?_, fun hv => ?_⟩
  · obtain ⟨m, hs⟩ := Memory.store_of_validAddress (s.reg c) hv
    exact ⟨s.setMem m, exec_sstore_ok a b c s hs, s.setMem_frame m, Memory.store_word_same hm hs,
      fun _ _ => Memory.store_word_ne hm hs, Memory.store_segLen hs, Memory.store_count hs, Memory.store_free hs⟩
  · exact exec_sstore_error a b c s (Memory.store_of_not_validAddress _ hv)

end Sys2Proof.Machine
end

section
/-! The statements on Add, Multiply, Divide and Bitwise NAND (42_arithmetic_logic): each writes one register, and what
it writes is said as a natural number or bit by bit. -/

namespace Sys2Proof.Machine

/-- Settles O13: one register write, and `+` on Words is the sum modulo 2^32. -/
theorem addIsModuloTwoToThirtyTwo : Obligations.AddIsModuloTwoToThirtyTwo := by
  intro a b c s
  refine ⟨decode_ok_iff_anyHigh (op := 3) rfl, _, exec_add a b c s, s.setReg_frame a _, ?_⟩
  rw [State.setReg_reg_self, BitVec.toNat_add]

/-- Settles O14: one register write, and `*` on Words is the product modulo 2^32. -/
theorem multiplyIsModuloTwoToThirtyTwo : Obligations.MultiplyIsModuloTwoToThirtyTwo := by
  intro a b c s
  refine ⟨decode_ok_iff_anyHigh (op := 4) rfl, _, exec_mul a b c s, s.setReg_frame a _, ?_⟩
  rw [State.setReg_reg_self, BitVec.toNat_mul]

/-- A division by another divisor than 0 writes the floor of the quotient, which needs no reduction modulo 2^32. -/
theorem exec_div_writes_floor (a b c : RegIx) {s : State} (hc : s.reg c ≠ 0#32) :
    ∃ q : Word, exec (.div a b c) s = .next (s.setReg a q) ∧ q.toNat = (s.reg b).toNat / (s.reg c).toNat :=
  ⟨_, exec_div_ok a b c s hc, quotient_toNat _ _⟩

/-- Settles O15: the floor is written where there is a quotient, and a divisor of 0 raises. -/
theorem divideIsFloorOrFatalStop : Obligations.DivideIsFloorOrFatalStop := by
  intro a b c s
  refine ⟨decode_ok_iff_anyHigh (op := 5) rfl, fun hc => ?_, exec_div_zero a b c s⟩
  obtain ⟨q, hexec, hq⟩ := exec_div_writes_floor a b c hc
  exact ⟨_, hexec, s.setReg_frame a q, by rw [State.setReg_reg_self, hq]⟩

/-- Settles O16: the remainder is the dividend modulo the divisor, which is positive. -/
theorem divideLeavesRemainderBelowDivisor : Obligations.DivideLeavesRemainderBelowDivisor := by
  intro a b c s
  refine ⟨fun hc => ?_, fun hc => ⟨_, exec_div_zero a b c s hc, rfl⟩⟩
  obtain ⟨q, hexec, hq⟩ := exec_div_writes_floor a b c hc
  have hpos : 0 < (s.reg c).toNat := Nat.pos_of_ne_zero fun h0 => hc (BitVec.eq_of_toNat_eq h0)
  refine ⟨_, (s.reg b).toNat % (s.reg c).toNat, hexec, ?_, Nat.mod_lt _ hpos, ?_⟩
  · rw [State.setReg_reg_self, hq]
  · rw [State.setReg_reg_self, hq, Nat.div_add_mod']

theorem nand32_getLsbD (v w : Word) {i : Nat} (hi : i < 32) :
    (nand32 v w).getLsbD i = !(v.getLsbD i && w.getLsbD i) := by
  simp [nand32, hi]

/-- Settles O17: one register write, of the Word whose bits are the complemented conjunctions. -/
theorem nandComplementsConjunctionBitByBit : Obligations.NandComplementsConjunctionBitByBit := by
  intro a b c s
  refine ⟨decode_ok_iff_anyHigh (op := 6) rfl, _, exec_nand a b c s, s.setReg_frame a _, fun i hi => ?_⟩
  rw [State.setReg_reg_self, nand32_getLsbD _ _ hi]

end Sys2Proof.Machine
end

section
/-! The statements on Halt, Map segment and Unmap segment (43_halt_and_segment_management), after what they need: the
words of an instruction that leaves register fields unused, and what an allocation and a deallocation leave as it
was. -/

namespace Sys2Proof.Machine

/-! ## The words of an instruction with unused fields (R105, R108, R109) -/

section UnusedFields

variable {f : RegIx → RegIx → RegIx → Instr} {op : Nat}
  (hfields : ∀ a b c, threeFields (f a b c) = some (op, a.toNat, b.toNat, c.toNat))
include hfields

theorem decode_ok_iff_fields (a b c : RegIx) (w : Word) :
    decode w = .ok (f a b c) ↔ (opcodeOf w).toNat = op ∧ fieldA w = a ∧ fieldB w = b ∧ fieldC w = c := by
  have := a.isLt
  have := b.isLt
  have := c.isLt
  rw [decode_ok_iff_anyHigh (hfields a b c), anyHigh_iff (by omega) (by omega), low_nine_eq_iff]

/-- Where `a` is not used, bits 27 to 6 are free. -/
theorem exists_decode_ok_iff_anyHigh_six (b c : RegIx) (w : Word) :
    (∃ a, decode w = .ok (f a b c)) ↔ AnyHigh 6 (op * 2 ^ 28) (b.toNat * 8 + c.toNat) w := by
  have := b.isLt
  have := c.isLt
  have hlow : w.toNat % 2 ^ 6 = b.toNat * 8 + c.toNat ↔ fieldB w = b ∧ fieldC w = c := by
    obtain ⟨-, hb, hc⟩ := fields_eq_iff w 0 b c
    rw [hb, hc]
    omega
  rw [anyHigh_iff (by omega) (by omega), hlow]
  simp [decode_ok_iff_fields hfields]

/-- Where neither `a` nor `b` is used, bits 27 to 3 are free. -/
theorem exists_decode_ok_iff_anyHigh_three (c : RegIx) (w : Word) :
    (∃ a b, decode w = .ok (f a b c)) ↔ AnyHigh 3 (op * 2 ^ 28) c.toNat w := by
  obtain ⟨-, -, hc⟩ := fields_eq_iff w 0 0 c
  rw [anyHigh_iff (by omega) c.isLt, ← hc]
  simp [decode_ok_iff_fields hfields]

/-- Where no field is used, the opcode alone decides. -/
theorem exists_decode_ok_iff_opcode (w : Word) :
    (∃ a b c, decode w = .ok (f a b c)) ↔ (opcodeOf w).toNat = op := by
  simp [decode_ok_iff_fields hfields]

end UnusedFields

/-! ## Halt (R170) -/

theorem exists_decode_halt_iff (w : Word) :
    (∃ a b c, decode w = .ok (.halt a b c)) ↔ 0x70000000 ≤ w.toNat ∧ w.toNat ≤ 0x7FFFFFFF := by
  rw [exists_decode_ok_iff_opcode (op := 7) fun _ _ _ => rfl, opcodeOf_toNat]
  omega

theorem no_step_of_halted {s : State} (hs : s.status = .halted) (u : State) : step s ≠ .next u := by
  intro hstep
  obtain ⟨hrun, -⟩ := step_next hstep
  simp [hs] at hrun

/-- Settles O18: the Halts are the words of opcode 7, and a Halt sets the status of the advanced state. -/
theorem haltEntersHaltedAndKeepsEverythingElse : Obligations.HaltEntersHaltedAndKeepsEverythingElse := by
  refine ⟨⟨by decide, exists_decode_halt_iff⟩, fun a b c s => ?_, fun s w hrun hfetch hlow hhigh => ?_⟩
  · exact ⟨_, exec_halt a b c s, rfl, fun _ => rfl, rfl, rfl, rfl, rfl, rfl, rfl, rfl⟩
  · obtain ⟨a, b, c, hdecode⟩ := (exists_decode_halt_iff w).2 ⟨hlow, hhigh⟩
    have hstep : step s = .next (s.advance.setStatus .halted) :=
      (step_of_fetched hrun ((s.fetchInstr_ok_iff _).2 ⟨w, hfetch, hdecode⟩)).trans (exec_halt a b c s.advance)
    exact ⟨_, hstep, rfl, rfl, rfl, fun _ => rfl, rfl, rfl, rfl, rfl, rfl, no_step_of_halted rfl⟩

/-! ## Map segment (R171) -/

theorem SameSegmentsBut.of_seg {h : Nat} {m m' : Memory} (hseg : ∀ k, k ≠ h → m'.seg k = m.seg k) :
    SameSegmentsBut h m m' :=
  fun k hk => by simp [Memory.segLen, Memory.word, hseg k hk]

theorem Memory.wf_count_le {m : Memory} (hm : m.wf) : m.count ≤ Config.maxHandles := by
  obtain ⟨-, hle, -⟩ := hm
  exact hle

section Allocated

variable {m m' : Memory} {ok : Bool} {size : Word} {h : Nat} (hm : m.wf) (ha : m.allocate ok size = .ok (h, m'))
include hm ha

/-- An allocated handle was free and is listed once, or it is the new last slot. -/
theorem Memory.allocate_live : m'.live h = true := by
  obtain ⟨-, -, -, hnodup, hfree⟩ := hm
  rw [Memory.live_iff]
  obtain ⟨-, ⟨rest, hf, rfl⟩ | ⟨hf, -, rfl, rfl⟩⟩ := (Memory.allocate_ok_iff _ _ _ _ _).1 ha
  · obtain ⟨-, hlt, -⟩ := hfree h (by simp [hf])
    rw [hf, List.nodup_cons] at hnodup
    exact ⟨by simpa [Memory.count] using hlt, hnodup.1⟩
  · simp [Memory.count, hf]

theorem Memory.allocate_sameSegmentsBut : SameSegmentsBut h m m' := by
  obtain ⟨-, -, -, -, hfree⟩ := hm
  refine .of_seg fun k hk => ?_
  obtain ⟨-, ⟨rest, hf, rfl⟩ | ⟨-, -, rfl, rfl⟩⟩ := (Memory.allocate_ok_iff _ _ _ _ _).1 ha
  · obtain ⟨-, hlt, -⟩ := hfree h (by simp [hf])
    rw [Memory.seg_set hlt, if_neg hk, Memory.seg, Memory.seg]
  · exact (Memory.seg_append _ _).trans (if_neg hk)

/-- An allocated handle fits in a register: there are at most 2^32 slots. -/
theorem Memory.allocate_handle_toNat : (BitVec.ofNat 32 h).toNat = h := by
  obtain ⟨hlt, -⟩ := (Memory.live_iff _ _).1 (Memory.allocate_live hm ha)
  exact Nat.mod_eq_of_lt (hlt.trans_le (Memory.wf_count_le (Memory.allocate_wf hm ha)))

end Allocated

/-- A Map whose allocation goes through writes the handle to `x[b]` and takes the new memory, in which that handle's
segment is zeros of `x[c]` Words and every other segment is as before. -/
theorem exec_map_allocates (a b c : RegIx) {s : State} {h : Nat} {m : Memory} (hm : s.mem.wf)
    (ha : s.mem.allocate (s.allocOk (s.reg c)) (s.reg c) = .ok (h, m)) :
    ∃ t, exec (.map a b c) s = .next t ∧ SameRegsBut b s t ∧ t.pc = s.pc ∧ SameRunAndIo s t ∧
      (t.reg b).toNat = h ∧ t.mem.free = m.free ∧ t.mem.count = m.count ∧ t.mem.live h = true ∧
      t.mem.segLen h = (s.reg c).toNat ∧ (∀ o, t.mem.word h o = 0#32) ∧ SameSegmentsBut h s.mem t.mem := by
  obtain ⟨hregs, hpc, -, hrun⟩ := (s.setMem m).setReg_frame b (BitVec.ofNat 32 h)
  obtain ⟨hlen, hzero⟩ := Memory.allocate_zeroed hm ha
  refine ⟨_, exec_map_ok a b c s ha, hregs, hpc, hrun, ?_, rfl, rfl, Memory.allocate_live hm ha, hlen, hzero,
    Memory.allocate_sameSegmentsBut hm ha⟩
  rw [State.setReg_reg_self, Memory.allocate_handle_toNat hm ha]

theorem allocOk_of_not_refused {s : State} {size : Word} (hok : ¬ AllocationRefused s size) : s.allocOk size = true :=
  eq_true_of_ne_false fun hno => hok (.inl hno)

/-- Settles O19: an allocation that is not refused pops the top of the free-list or adds the slot `count`; what it does
to the segments and the registers is the same in both cases. -/
theorem mapAllocatesZeroedSegment : Obligations.MapAllocatesZeroedSegment := by
  intro a b c s hm
  refine ⟨exists_decode_ok_iff_anyHigh_six (op := 8) (fun _ _ _ => rfl) b c, fun h rest hok hfree => ?_,
    fun hok hfree => ?_, fun hno => exec_map_error a b c s ((Memory.allocate_error_iff _ _ _ _).2 ⟨hno, rfl⟩)⟩
  · obtain ⟨m, ha, hrest⟩ := Memory.allocate_of_free_cons (s.reg c) hfree
    rw [← allocOk_of_not_refused hok] at ha
    obtain ⟨-, hcount⟩ | ⟨hnil, -⟩ := Memory.allocate_count ha
    · simpa only [hrest, hcount] using exec_map_allocates a b c hm ha
    · simp [hfree] at hnil
  · have hslot : s.mem.count < Config.maxHandles :=
      lt_of_le_of_ne (Memory.wf_count_le hm) fun hfull => hok (.inr ⟨hfree, hfull⟩)
    obtain ⟨m, ha, hcount, hnil⟩ := Memory.allocate_of_free_nil (s.reg c) hfree hslot
    rw [← allocOk_of_not_refused hok] at ha
    simpa only [hnil, hcount] using exec_map_allocates a b c hm ha

/-! ## Unmap segment (R172) -/

theorem unmappable_iff (m : Memory) (h : Word) :
    Unmappable m h ↔ h.toNat < m.count ∧ h ≠ 0#32 ∧ h.toNat ∉ m.free := by
  rw [Unmappable, ne_eq, ne_eq, ← BitVec.toNat_inj, BitVec.toNat_ofNat, Nat.zero_mod]

theorem Memory.deallocate_of_unmappable {m : Memory} {h : Word} (hu : Unmappable m h) :
    ∃ m', m.deallocate h = .ok m' := by
  obtain ⟨hc, h0, hf⟩ := (unmappable_iff m h).1 hu
  exact ⟨_, (Memory.deallocate_ok_iff _ _ _).2 ⟨hc, h0, hf, rfl⟩⟩

theorem Memory.deallocate_of_not_unmappable {m : Memory} {h : Word} (hu : ¬ Unmappable m h) :
    m.deallocate h = .error (.invalidUnmap h) :=
  (Memory.deallocate_error_iff _ _ _).2 ⟨(unmappable_iff m h).not.1 hu, rfl⟩

/-- A deallocation empties the segment in its slot and touches no other slot. -/
theorem Memory.deallocate_seg {m m' : Memory} {h : Word} (hd : m.deallocate h = .ok m') (k : Nat) :
    m'.seg k = if k = h.toNat then Segment.zeros 0 else m.seg k := by
  obtain ⟨hc, -, -, rfl⟩ := (Memory.deallocate_ok_iff _ _ _).1 hd
  exact Memory.seg_set hc _ k

theorem Memory.deallocate_segLen_self {m m' : Memory} {h : Word} (hd : m.deallocate h = .ok m') :
    m'.segLen h.toNat = 0 := by
  rw [Memory.segLen, Memory.deallocate_seg hd, if_pos rfl, Segment.zeros_len]

/-- Settles O20: the deallocation goes through for an unmappable handle, where the facts about a deallocation say what
it changes, and raises for any other. -/
theorem unmapEmptiesSegmentAndPushesHandle : Obligations.UnmapEmptiesSegmentAndPushesHandle := by
  intro a b c s
  refine ⟨exists_decode_ok_iff_anyHigh_three (op := 9) (fun _ _ _ => rfl) c, fun hu => ?_, fun hu => ?_⟩
  · obtain ⟨m, hd⟩ := Memory.deallocate_of_unmappable hu
    exact ⟨s.setMem m, exec_unmap_ok a b c s hd, s.setMem_frame m, Memory.deallocate_free hd,
      Memory.deallocate_count hd, Memory.deallocate_segLen_self hd,
      .of_seg fun k hk => (Memory.deallocate_seg hd k).trans (if_neg hk)⟩
  · exact exec_unmap_error a b c s (Memory.deallocate_of_not_unmappable hu)

end Sys2Proof.Machine
end

section
/-! The statements on the byte channels (44_io): the byte Output emits, the Word Input delivers, and which instruction
adds to the output. -/

namespace Sys2Proof.Machine

/-! ## Output (R180, R182) -/

/-- R180: the byte emitted is the Word modulo 256. -/
theorem lowByte_toNat (w : Word) : (lowByte w).toNat = w.toNat % 256 := by
  rw [lowByte, BitVec.extractLsb'_toNat, Nat.shiftRight_zero]

/-- Settles O21: the next state is `outByte` of the low byte, which changes the output alone. -/
theorem outputAppendsLowByte : Obligations.OutputAppendsLowByte := by
  intro a b c s
  exact ⟨exists_decode_ok_iff_anyHigh_three (op := 10) (fun _ _ _ => rfl) c, _, _, exec_out a b c s,
    s.outByte_out _, lowByte_toNat _, s.outByte_reg _, rfl, rfl, rfl, rfl, rfl, rfl, rfl⟩

/-- In dispatch only an Output changes the output, and it appends one byte. -/
theorem Effect.out {i : Instr} {s t : State} (h : Effect i s t) :
    t.out = s.out ∨ ∃ a b c byte, i = .out a b c ∧ t.out = s.out ++ [byte] := by
  cases h with
  | outputs a b c hi => exact .inr ⟨a, b, c, _, hi, s.outByte_out _⟩
  | inputs => exact .inl s.inByte_out
  | writesRegister | nothing | stores | halts | maps | unmaps | jumps | loads | stops => exact .inl rfl

/-- Settles O49: a fatal stop in fetch or decode keeps the output, and otherwise the inversion of dispatch says which
instruction adds to it; advancing the pc does not. -/
theorem outputOnlyGrowsAndOnlyByOutput : Obligations.OutputOnlyGrowsAndOnlyByOutput := by
  intro s t hstep
  obtain ⟨-, ⟨cause, -, rfl⟩ | ⟨i, hfetch, hexec⟩⟩ := step_next hstep
  · exact .inl rfl
  · simpa [hfetch] using (exec_effect hexec).out

/-! ## Input (R181, R183) -/

/-- R181: a byte arrives zero-extended, so its value as a natural number is kept. -/
theorem inputWord_some_toNat (byte : Byte) : (inputWord (some byte)).toNat = byte.toNat :=
  BitVec.toNat_setWidth_of_le (by decide)

/-- Settles O22: a register write after `inByte`, which moves the position alone; whether the stream has a byte there
decides what is written and whether the position moves. -/
theorem inputWritesByteOrAllOnes : Obligations.InputWritesByteOrAllOnes := by
  intro a b c s
  refine ⟨exists_decode_ok_iff_anyHigh_three (op := 11) (fun _ _ _ => rfl) c, _, exec_inp a b c s,
    fun r hr => (State.setReg_reg_ne _ _ hr).trans (s.inByte_reg r), s.inByte_pc, s.inByte_mem, s.inByte_status,
    s.inByte_icount, s.inByte_out, s.inByte_input, s.inByte_alloc, ?_⟩
  rw [State.setReg_reg_self, State.setReg_inPos, State.inByte_fst, State.inByte_inPos]
  refine ⟨fun byte hbyte => ?_, fun hend => ?_⟩
  · rw [hbyte]
    exact ⟨inputWord_some_toNat byte, rfl⟩
  · rw [hend]
    exact ⟨rfl, rfl⟩

end Sys2Proof.Machine
end

section
/-! The statement on Load program (45_load_program): what it leaves unchanged in the memory, beside the copy in
segment 0. -/

namespace Sys2Proof.Machine

/-! ## Load program (R190) -/

theorem Memory.loadProgram_free {m m' : Memory} {h : Word} (hl : m.loadProgram h = .ok m') : m'.free = m.free := by
  obtain ⟨-, -, rfl⟩ := (Memory.loadProgram_ok_iff _ _ _).1 hl
  rfl

theorem Memory.loadProgram_sameSegmentsBut {m m' : Memory} {h : Word} (hl : m.loadProgram h = .ok m') :
    SameSegmentsBut 0 m m' :=
  .of_seg fun k hk => (Memory.loadProgram_seg hl k).trans (if_neg hk)

/-- Settles O23: with `x[b] = 0` the instruction is a jump; otherwise the memory operation goes through for a live
handle, where the facts about it say what the copy changes, and raises for any other. -/
theorem loadProgramCopiesSegmentAndSetsPc : Obligations.LoadProgramCopiesSegmentAndSetsPc := by
  intro a b c s
  refine ⟨exists_decode_ok_iff_anyHigh_six (op := 12) (fun _ _ _ => rfl) b c, fun hzero => ?_, fun hb hlive => ?_,
    fun hb hdead => ?_⟩
  · exact ⟨_, exec_loadp_jump a b c s hzero, rfl, rfl, fun _ => rfl, rfl, rfl, rfl, rfl, rfl, rfl⟩
  · obtain ⟨m, hl⟩ := Memory.loadProgram_of_liveHandle hlive
    obtain ⟨hregs, -, hrun⟩ := s.setMem_frame m
    exact ⟨_, exec_loadp_ok a b c s hb hl, rfl, hregs, hrun, Memory.loadProgram_segLen_zero hl,
      Memory.loadProgram_word_zero hl, Memory.loadProgram_sameSegmentsBut hl, Memory.loadProgram_count hl,
      Memory.loadProgram_free hl⟩
  · exact exec_loadp_error a b c s hb (Memory.loadProgram_of_not_live hdead)

end Sys2Proof.Machine
end

section
/-! The statement on Load immediate (46_load_immediate): the one word it has, and the zero-extension of its operand. -/

namespace Sys2Proof.Machine

/-- A Load immediate has no bits that nothing reads, so its canonical word is the only one that decodes to it. -/
theorem decode_ok_loadi_iff_eq_immWord (w : Word) (l : RegIx) (imm : Imm) :
    decode w = .ok (.loadi l imm) ↔ w = immWord l imm := by
  rw [decode_ok_loadi_iff]
  constructor
  · rintro ⟨hop, rfl, rfl⟩
    exact (immWord_of_fields hop).symm
  · rintro rfl
    exact immWord_fields l imm

/-- R195: zero-extension keeps the immediate's value as a natural number. -/
theorem immOperand_toNat (imm : Imm) : (immOperand imm).toNat = imm.toNat :=
  BitVec.toNat_setWidth_of_le (by decide)

/-- Settles O24: the word is the canonical one, and the next state is one register write. -/
theorem loadImmediateZeroExtends : Obligations.LoadImmediateZeroExtends := by
  intro l imm s
  refine ⟨fun w => ?_, _, exec_loadi s l imm, s.setReg_frame l _, ?_⟩
  · rw [decode_ok_loadi_iff_eq_immWord, ← BitVec.toNat_inj, immWord_toNat]
    omega
  · rw [State.setReg_reg_self, immOperand_toNat]

end Sys2Proof.Machine
end

section
/-! The statement on the boot image (70_reset_and_hazards): the recursion of `wordsOfBytes` takes four bytes to a
Word. -/

namespace Sys2Proof.Machine

/-! ## Boot image (R234) -/

/-- Four bytes are at most 2^32 - 1 together, so the Word holds their sum without wrapping. -/
theorem wordOfBytes_toNat (b0 b1 b2 b3 : Byte) :
    (wordOfBytes b0 b1 b2 b3).toNat = b0.toNat * 2 ^ 24 + b1.toNat * 2 ^ 16 + b2.toNat * 2 ^ 8 + b3.toNat := by
  rw [wordOfBytes, BitVec.toNat_ofNat]
  omega

theorem wordsOfBytes_cons_eq_some {b0 b1 b2 b3 : Byte} {rest : List Byte} {ws : List Word} :
    wordsOfBytes (b0 :: b1 :: b2 :: b3 :: rest) = some ws ↔
      ∃ tail, wordsOfBytes rest = some tail ∧ ws = wordOfBytes b0 b1 b2 b3 :: tail := by
  simp [wordsOfBytes, eq_comm]

theorem wordsOfBytes_length {bytes : List Byte} {ws : List Word} (h : wordsOfBytes bytes = some ws) :
    4 * ws.length = bytes.length := by
  induction bytes using wordsOfBytes.induct generalizing ws with
  | case1 =>
    cases h
    rfl
  | case2 b0 b1 b2 b3 rest ih =>
    obtain ⟨tail, htail, rfl⟩ := wordsOfBytes_cons_eq_some.1 h
    rw [List.length_cons, Nat.mul_succ, ih htail]
    rfl
  | case3 | case4 | case5 => simp [wordsOfBytes] at h

theorem wordsOfBytes_getElem {bytes : List Byte} {ws : List Word} (h : wordsOfBytes bytes = some ws) {k : Nat}
    (hk : k < ws.length) (h3 : 4 * k + 3 < bytes.length) :
    ws[k] = wordOfBytes bytes[4 * k] bytes[4 * k + 1] bytes[4 * k + 2] bytes[4 * k + 3] := by
  induction bytes using wordsOfBytes.induct generalizing ws k with
  | case1 => simp at h3
  | case2 b0 b1 b2 b3 rest ih =>
    obtain ⟨tail, htail, rfl⟩ := wordsOfBytes_cons_eq_some.1 h
    cases k with
    | zero => rfl
    | succ k => exact ih htail (Nat.lt_of_succ_lt_succ hk) (Nat.lt_of_add_lt_add_right (n := 4) h3)
  | case3 | case4 | case5 => simp [wordsOfBytes] at h

theorem wordsOfBytes_of_bootImage {bytes : List Byte} {ws : List Word} (h : bootImage bytes = some ws) :
    wordsOfBytes bytes = some ws :=
  (Option.ite_none_right_eq_some.1 h).2

/-- Settles O52: by the length and the entries of `wordsOfBytes`. -/
theorem bootImageIsBigEndian : Obligations.BootImageIsBigEndian := by
  intro bytes ws hboot
  have hwords := wordsOfBytes_of_bootImage hboot
  refine ⟨wordsOfBytes_length hwords, fun k hk h3 => ?_⟩
  rw [wordsOfBytes_getElem hwords hk h3, wordOfBytes_toNat]

end Sys2Proof.Machine
end

section
/-! The statements on the disassembler, on the length of segment 0 and the copy Load program makes, on the instruction
count and the pc, on the input stream, and on reset and its boot image. -/

namespace Sys2Proof.Machine

/-! ## Disassembling and assembling (30_encoding R118 to R121) -/

/-- A canonical word is the encoding of the instruction it decodes to. -/
theorem encode_of_decode_canonical {w : Word} {i : Instr} (h : decode w = .ok i) (hw : canonicalWord w = true) :
    encode i = w := by
  simp only [canonicalWord, Bool.and_eq_true, Bool.or_eq_true, beq_iff_eq, immediateWord_iff] at hw
  by_cases hop : (opcodeOf w).toNat = 13
  · exact encode_of_decode_immediate h hop
  · obtain ⟨-, himm | hclear⟩ := hw
    · exact absurd himm hop
    · exact (encode_of_decode_three h (decode_opcode h ▸ hop)).trans ((formatMask_eq_self_iff w).2 hclear)

/-- An immediate written as a number has that number as its value, whatever the labels. -/
theorem asmImmValue_num (labels : List (List Char × Nat)) (imm : Imm) :
    asmImmValue labels (.num imm.toNat) = some imm := by
  simp [asmImmValue, imm.isLt]

/-- The written form leaves out only fields that are 0, so it assembles to the canonical word (R114, R119). -/
theorem assemble_writtenForm (labels : List (List Char × Nat)) {i : Instr} (hi : i.unusedFieldsZero = true) :
    assemble labels (writtenForm i) = some (encode i) := by
  cases i with
  | cmov | sload | sstore | add | mul | div | nand => rfl
  | halt | map | unmap | out | inp | loadp =>
    simp only [Instr.unusedFieldsZero, Bool.and_eq_true, beq_iff_eq] at hi
    simp [hi, writtenForm, assemble, encode, threeWord]
  | loadi l imm => simp [writtenForm, assemble, asmImmValue_num, encode, immWord]

/-- Settles O9: where the written form is printed the word is canonical and leaves no field out that is not 0;
otherwise `.word` holds the word itself. -/
theorem assembleOfDisassembleIsIdentity : Obligations.AssembleOfDisassembleIsIdentity := by
  intro labels w
  unfold disassemble
  split
  case h_1 => rfl
  case h_2 i hdecode =>
    split
    case isTrue hlossless =>
      obtain ⟨hcanonical, hunused⟩ := Bool.and_eq_true_iff.1 hlossless
      rw [assemble_writtenForm labels hunused, encode_of_decode_canonical hdecode hcanonical]
    case isFalse => rfl

/-! ## The length of segment 0 (20_memory R87) -/

/-- In canonical memory handle 0 is neither free nor fresh, so no allocation answers it. -/
theorem Memory.allocate_handle_ne_zero {m m' : Memory} {ok : Bool} {size : Word} {h : Nat} (hm : m.wf)
    (ha : m.allocate ok size = .ok (h, m')) : h ≠ 0 := by
  obtain ⟨hcount, -, -, -, hfree⟩ := hm
  obtain ⟨-, ⟨rest, hf, -⟩ | ⟨-, -, rfl, -⟩⟩ := (Memory.allocate_ok_iff _ _ _ _ _).1 ha
  · obtain ⟨hne, -⟩ := hfree h (by simp [hf])
    exact hne
  · exact hcount.ne'

theorem Memory.allocate_segLen_zero {m m' : Memory} {ok : Bool} {size : Word} {h : Nat} (hm : m.wf)
    (ha : m.allocate ok size = .ok (h, m')) : m'.segLen 0 = m.segLen 0 := by
  obtain ⟨hlen, -⟩ := Memory.allocate_sameSegmentsBut hm ha 0 (Memory.allocate_handle_ne_zero hm ha).symm
  exact hlen

/-- An Unmap empties the segment it names, which is not segment 0 (D10). -/
theorem Memory.deallocate_segLen_zero {m m' : Memory} {h : Word} (hd : m.deallocate h = .ok m') :
    m'.segLen 0 = m.segLen 0 := by
  obtain ⟨-, h0, -⟩ := (Memory.deallocate_ok_iff _ _ _).1 hd
  have hne : h.toNat ≠ 0 := BitVec.toNat_ne_iff_ne.2 h0
  rw [Memory.segLen, Memory.deallocate_seg hd, if_neg hne.symm, Memory.segLen]

/-- In dispatch only a Load program changes the length of segment 0. -/
theorem Effect.segLen_zero {i : Instr} {s t : State} (h : Effect i s t) (hm : s.mem.wf) (hi : i.opcode ≠ 12) :
    t.mem.segLen 0 = s.mem.segLen 0 := by
  cases h with
  | stores _ _ _ _ _ hs => exact Memory.store_segLen hs 0
  | maps _ _ _ _ _ _ ha => exact Memory.allocate_segLen_zero hm ha
  | unmaps _ _ _ hd => exact Memory.deallocate_segLen_zero hd
  | loads _ _ _ h12 => exact absurd h12 hi
  | inputs => exact congrArg (·.segLen 0) s.inByte_mem
  | writesRegister | nothing | halts | outputs | jumps | stops => rfl

/-- Settles O36: by the inversion of dispatch. -/
theorem onlyLoadProgramResizesSegmentZero : Obligations.OnlyLoadProgramResizesSegmentZero :=
  fun _ _ _ hm hexec hi => (exec_effect hexec).segLen_zero hm hi

/-! ## The instruction count (10_state R36, 40_step R140) -/

/-- Dispatch leaves the instruction count alone: it is counted before. -/
theorem Effect.icount_eq {i : Instr} {s t : State} (h : Effect i s t) : t.icount = s.icount := by
  cases h with
  | inputs => exact s.inByte_icount
  | writesRegister | nothing | stores | halts | maps | unmaps | outputs | jumps | loads | stops => rfl

/-- Settles O38: a stop in fetch or decode changes only the status; otherwise the advance counts one. -/
theorem instructionCountCountsDecodedSteps : Obligations.InstructionCountCountsDecodedSteps := by
  intro s t hstep
  obtain ⟨-, ⟨cause, hfetch, rfl⟩ | ⟨i, hfetch, hexec⟩⟩ := step_next hstep
  · simp [hfetch]
  · simp [hfetch, (exec_effect hexec).icount_eq]

/-! ## The pc increment (10_state R32) -/

/-- A fetch that goes through reads below `MAX_SEG_LEN`. -/
theorem Memory.wf_pc_lt_of_fetch {m : Memory} {p w : Word} (hm : m.wf) (hf : m.fetch p = .ok w) :
    p.toNat < Config.maxSegLen := by
  obtain ⟨hlt, -⟩ := (Memory.fetch_ok_iff _ _ _).1 hf
  exact hlt.trans_le (Memory.wf_segLen_le hm 0)

/-- Settles O39: the increment wraps at 2^32 - 1 only, which is `MAX_SEG_LEN`, an offset no segment has. -/
theorem pcIncrementNeverWraps : Obligations.PcIncrementNeverWraps := by
  refine fun s => ⟨s.advance_pc_toNat, fun hm w hf => ?_⟩
  have hlt : s.pc.toNat < 2 ^ 32 - 1 := Memory.wf_pc_lt_of_fetch hm hf
  rw [s.advance_pc_toNat]
  omega

/-! ## The copy Load program makes (20_memory R70) -/

/-- A store leaves every segment but the one it goes to. -/
theorem Memory.store_sameSegmentsBut {m m' : Memory} {h o v : Word} (hs : m.store h o v = .ok m') :
    SameSegmentsBut h.toNat m m' :=
  .of_seg fun k hk => (Memory.store_seg hs k).trans (if_neg hk)

/-- Settles O45: the copy stands in slot 0 and its source in slot `h`, which is another; a store to one of the two
leaves the other. -/
theorem loadedProgramIsAnIndependentCopy : Obligations.LoadedProgramIsAnIndependentCopy := by
  intro m m1 h _ h0 hl
  have hne : h.toNat ≠ 0 := BitVec.toNat_ne_iff_ne.2 h0
  have hlen := Memory.loadProgram_segLen_zero hl
  have hword := Memory.loadProgram_word_zero hl
  refine ⟨⟨hlen, hword⟩, fun h' o v m2 h0' hs => ?_, fun o v m2 hs => ?_⟩
  · obtain ⟨hlen', hword'⟩ := Memory.store_sameSegmentsBut hs 0 (BitVec.toNat_ne_iff_ne.2 h0').symm
    exact ⟨hlen'.trans hlen, fun p => (hword' p).trans (hword p)⟩
  · obtain ⟨hlenSrc, hwordSrc⟩ := Memory.loadProgram_sameSegmentsBut hl h.toNat hne
    obtain ⟨hlen', hword'⟩ := Memory.store_sameSegmentsBut hs h.toNat hne
    exact ⟨hlen'.trans hlenSrc, fun p => (hword' p).trans (hwordSrc p)⟩

/-! ## The input stream (44_io R183) -/

theorem State.inByte_of_byte {s : State} {b : Byte} (hb : s.input.byte s.inPos = some b) :
    s.inByte = (some b, { s with inPos := s.inPos + 1 }) :=
  Prod.ext (s.inByte_fst.trans hb) (s.inByte_snd.trans (if_pos (by simp [hb])))

theorem State.inByte_of_end {s : State} (hend : s.input.byte s.inPos = none) : s.inByte = (none, s) :=
  Prod.ext (s.inByte_fst.trans hend) (s.inByte_snd.trans (if_neg (by simp [hend])))

theorem InputStream.byte_of_lt {inp : InputStream} {i : Nat} (h : i < inp.bytes.length) :
    inp.byte i = some inp.bytes[i] := by
  simp [InputStream.byte, h]

theorem InputStream.byte_of_ended {inp : InputStream} {i : Nat} (hend : inp.endless = false)
    (h : inp.bytes.length ≤ i) : inp.byte i = none := by
  simp [InputStream.byte, h, hend]

theorem InputStream.exists_byte_of_endless {inp : InputStream} (hend : inp.endless = true) (i : Nat) :
    ∃ b, inp.byte i = some b := by
  rcases lt_or_ge i inp.bytes.length with hlt | hge
  · exact ⟨_, InputStream.byte_of_lt hlt⟩
  · exact ⟨Config.inputByte i, by simp [InputStream.byte, hge, hend]⟩

/-- Settles O47: whether the stream has a byte at the position decides what `InByte` does. -/
theorem inByteTakesNextByteOrEndOfStream : Obligations.InByteTakesNextByteOrEndOfStream := by
  refine fun s => ⟨fun hlt => ?_, fun hend hle => ?_, fun hendless => ?_⟩
  · exact State.inByte_of_byte (InputStream.byte_of_lt hlt)
  · exact State.inByte_of_end (InputStream.byte_of_ended hend hle)
  · obtain ⟨b, hb⟩ := InputStream.exists_byte_of_endless hendless s.inPos
    exact ⟨b, State.inByte_of_byte hb⟩

/-- No instruction replaces the stream, and past its end none moves the position. -/
theorem Effect.input_of_end {i : Instr} {s t : State} (h : Effect i s t) (hend : s.input.byte s.inPos = none) :
    t.input = s.input ∧ t.inPos = s.inPos := by
  cases h with
  | inputs => simp [State.inByte_of_end hend]
  | writesRegister | nothing | stores | halts | maps | unmaps | outputs | jumps | loads | stops => exact ⟨rfl, rfl⟩

/-- Settles O48: a step past the end of the stream keeps the stream and the position. -/
theorem endOfStreamIsPermanent : Obligations.EndOfStreamIsPermanent := by
  intro s t hend hstep
  obtain ⟨-, ⟨cause, -, rfl⟩ | ⟨i, -, hexec⟩⟩ := step_next hstep
  · exact ⟨hend, rfl⟩
  · obtain ⟨hinput, hpos⟩ := (exec_effect hexec).input_of_end (s := s.advance) hend
    rw [hinput, hpos]
    exact ⟨hend, rfl⟩

/-! ## Boot images and reset (10_state R43, 70_reset R230 to R237) -/

/-- Bytes make Words exactly when no partial word trails. -/
theorem exists_wordsOfBytes_iff (bytes : List Byte) :
    (∃ ws, wordsOfBytes bytes = some ws) ↔ bytes.length % 4 = 0 := by
  induction bytes using wordsOfBytes.induct with
  | case1 => simp [wordsOfBytes]
  | case2 b0 b1 b2 b3 rest ih =>
    simp only [wordsOfBytes_cons_eq_some, List.length_cons]
    rw [show (rest.length + 1 + 1 + 1 + 1) % 4 = rest.length % 4 by omega, ← ih]
    simp
  | case3 | case4 | case5 => simp [wordsOfBytes]

/-- At most `MAX_SEG_LEN` = 2^32 - 1 whole Words are fewer than 4 * 2^32 bytes. -/
theorem imageLengthOk_iff (n : Nat) : imageLengthOk n = true ↔ n % 4 = 0 ∧ n < 4 * 2 ^ 32 := by
  simp only [imageLengthOk, Bool.and_eq_true, decide_eq_true_eq]
  rw [Config.maxSegLen]
  omega

/-- Settles O53: the length check and the grouping in fours both ask for a multiple of 4. -/
theorem partialOrOversizeImageIsRefused : Obligations.PartialOrOversizeImageIsRefused := by
  refine ⟨fun bytes => ?_, rfl⟩
  simp only [bootImage, Option.ite_none_right_eq_some, exists_and_left, imageLengthOk_iff, exists_wordsOfBytes_iff]
  tauto

theorem State.boot_reg (image : List Word) (input : InputStream) (alloc : AllocPolicy) (r : RegIx) :
    (State.boot image input alloc).reg r = 0#32 :=
  Vector.getElem_replicate (n := 8) (regIx_lt r)

/-- Settles O50: reset answers the boot state, whose memory is a new one holding the image. -/
theorem resetGivesEveryFieldItsValue : Obligations.ResetGivesEveryFieldItsValue := by
  intro s image input alloc himage
  obtain ⟨hcount, hfree, -, hlen, hwords⟩ := newMemoryHoldsTheWordsInSegmentZero image
  exact ⟨_, if_pos himage, State.boot_reg image input alloc, rfl, hcount, hlen, hwords, hfree, rfl, rfl, rfl, rfl⟩

/-- Settles O51: pc 0 is beyond a segment 0 without Words, so the fetch fails. -/
theorem emptyImageStopsAtFirstStep : Obligations.EmptyImageStopsAtFirstStep := by
  intro input alloc
  obtain ⟨-, hstop⟩ := fetchReadsSegmentZeroOrStops (State.boot [] input alloc)
  exact ⟨_, hstop rfl (Nat.zero_le _), rfl, rfl, rfl⟩

/-! ## Terminal states (40_step R131) and sample words (30_encoding R102 to R110) -/

/-- No step is taken from a terminal state (R131). -/
theorem step_of_terminal {s : State} {f : Fault} (h : s.terminal = some f) : step s = .fault f := by
  simp only [step, h]

/-- Settles O29: the status says which stop the state names. -/
theorem terminalStatesAnswerTheirNamedStop : Obligations.TerminalStatesAnswerTheirNamedStop :=
  fun s => ⟨fun hs => step_of_terminal (by simp [State.terminal, hs]),
    fun c hs => step_of_terminal (by simp [State.terminal, hs])⟩

/-- Settles O8: the decoder computes on each of the seven fixed words. -/
theorem sampleWordsDecodeAsEncodingSays : Obligations.SampleWordsDecodeAsEncodingSays := by
  unfold Obligations.SampleWordsDecodeAsEncodingSays
  decide

end Sys2Proof.Machine
end
